-- ==== Sys2Proof/Word.lean ====
section
/-! DEFINITION. The two word types of the spec: a 16-bit register value (00_scope.md R8, R10) and a 32-bit command word
(30_encoding.md R85). -/

namespace Sys2Proof

/-- A register value: every register of the block is 16 bits wide (R8). -/
abbrev Word := BitVec 16

/-- A command word (R85). -/
abbrev CmdWord := BitVec 32

end Sys2Proof
end

