-- ==== Sys2Proof/Syntax.lean ====
section
/-! DEFINITION. The commands of 30_encoding.md R89 and their operands, one constructor of `Instr` per row of
spec/opcode_table.json; and the refusal reasons of 60_exceptions.md R256. -/

namespace Sys2Proof

/-- The two instances of the block (00_scope.md R7). -/
inductive Inst where
  | i0 | i1
  deriving DecidableEq, Repr, Inhabited

/-- The DMA channel operand (30_encoding.md R81). -/
inductive Channel where
  | rx | tx
  deriving DecidableEq, Repr

/-- The frame length, as a Configuration field (41_configuration.md R140) and as SETFRAME's operand (30_encoding.md R82). -/
inductive FrameLen where
  | bits8 | bits16
  deriving DecidableEq, Repr

/-- SETDIR's operand (30_encoding.md R83). -/
inductive Direction where
  | rx | tx
  deriving DecidableEq, Repr

/-- The eight status flags, in the order of their numbers 0 to 7 (30_encoding.md R79). -/
inductive Flag where
  | rxne | txe | chside | udr | crcerr | modf | ovr | bsy
  deriving DecidableEq, Repr

/-- The three interrupt sources (30_encoding.md R80). -/
inductive Source where
  | err | rxne | txe
  deriving DecidableEq, Repr

/-- The seven registers of one block, in the order of their indices 0 to 6 (20_memory.md R52, 30_encoding.md R84). -/
inductive Reg where
  | ctrl1 | ctrl2 | sts | data | crcpoly | rxcrc | txcrc
  deriving DecidableEq, Repr

/-- Direction mode of a Configuration (41_configuration.md R140). -/
inductive DirMode where
  | fullDuplex | halfDuplexRx | halfDuplexTx | receiveOnly
  deriving DecidableEq, Repr

/-- Role of a Configuration (R140). -/
inductive Role where
  | slave | master
  deriving DecidableEq, Repr

/-- Clock polarity of a Configuration (R140). -/
inductive Polarity where
  | idleLow | idleHigh
  deriving DecidableEq, Repr

/-- Clock phase of a Configuration (R140). -/
inductive Phase where
  | firstEdge | secondEdge
  deriving DecidableEq, Repr

/-- Slave-select management of a Configuration (R140). -/
inductive SelectMode where
  | hardware | software
  deriving DecidableEq, Repr

/-- Bit order of a Configuration (R140). -/
inductive BitOrder where
  | msbFirst | lsbFirst
  deriving DecidableEq, Repr

/-- The eight fields of a Configuration that CTRL1 holds. `baud` is the divisor's code k, which selects the divisor
2^(k+1) (30_encoding.md R75). -/
structure Ctrl1Fields where
  dir   : DirMode
  role  : Role
  frame : FrameLen
  cpol  : Polarity
  cpha  : Phase
  nss   : SelectMode
  baud  : BitVec 3
  order : BitOrder
  deriving DecidableEq, Repr

/-- A Configuration: the eight CTRL1 fields and the CRC polynomial (41_configuration.md R140). -/
structure Configuration extends Ctrl1Fields where
  poly : Word
  deriving DecidableEq, Repr

/-- The commands (30_encoding.md R89). `n` is the instance; a branch offset is a signed number of words (R90). -/
inductive Instr where
  | reset (n : Inst)
  | configure (n : Inst) (c : Configuration)
  | enable (n : Inst)
  | disable (n : Inst)
  | dmaen (n : Inst) (ch : Channel)
  | dmadis (n : Inst) (ch : Channel)
  | txdata (n : Inst) (v : Word)
  | rxdata (n : Inst)
  | ssiset (n : Inst)
  | ssiclr (n : Inst)
  | ssoeen (n : Inst)
  | ssoedis (n : Inst)
  | setframe (n : Inst) (len : FrameLen)
  | setdir (n : Inst) (d : Direction)
  | crcen (n : Inst)
  | crcdis (n : Inst)
  | crcnext (n : Inst)
  | rdtxcrc (n : Inst)
  | rdrxcrc (n : Inst)
  | rdpoly (n : Inst)
  | rdflag (n : Inst) (f : Flag)
  | inten (n : Inst) (src : Source)
  | intdis (n : Inst) (src : Source)
  | rdint (n : Inst) (src : Source)
  | clrflag (n : Inst) (f : Flag)
  | clrint (n : Inst) (src : Source)
  | busrd (n : Inst) (r : Reg)
  | buswr (n : Inst) (r : Reg) (v : Word)
  | bz (off : Int)
  | bnz (off : Int)
  | halt
  deriving DecidableEq, Repr

/-- Why a run is refused (60_exceptions.md R256). -/
inductive Reason where
  | illegal | truncated | badTarget | badWidth | unmapped | secondMaster
  deriving DecidableEq, Repr

end Sys2Proof
end

