-- ==== Sys2Proof/WellFormed.lean ====
section
/-! DEFINITION. Which terms of `Instr` are commands. The operand types admit only the values the spec gives, but for a branch
offset, which is a whole number here and sixteen signed bits in the command word (30_encoding.md R90). -/

namespace Sys2Proof

/-- The offsets that sixteen signed bits can name (R90). -/
def offsetFits (off : Int) : Bool :=
  decide (-32768 ≤ off) && decide (off ≤ 32767)

/-- The command has an encoding. -/
def Instr.wellFormed : Instr → Bool
  | .bz off | .bnz off => offsetFits off
  | .reset _ | .configure _ _ | .enable _ | .disable _ | .dmaen _ _ | .dmadis _ _ | .txdata _ _ | .rxdata _
  | .ssiset _ | .ssiclr _ | .ssoeen _ | .ssoedis _ | .setframe _ _ | .setdir _ _ | .crcen _ | .crcdis _
  | .crcnext _ | .rdtxcrc _ | .rdrxcrc _ | .rdpoly _ | .rdflag _ _ | .inten _ _ | .intdis _ _ | .rdint _ _
  | .clrflag _ _ | .clrint _ _ | .busrd _ _ | .buswr _ _ _ | .halt => true

end Sys2Proof
end

