-- ==== Sys2Proof/Decode.lean ====
section
/-! DEFINITION. Command words (30_encoding.md Part B): the decoder, total on any list of words, and the encoder written from
the same tables; the length rule and the command boundaries of a stream. -/

namespace Sys2Proof

/-! ### The fields of a word (R85) -/

/-- A command word taken apart (R85). -/
structure Fields where
  imm : BitVec 16
  sel : BitVec 8
  z   : Bool
  n   : Inst
  op  : BitVec 6
  deriving DecidableEq, Repr

def instOfBit : Bool → Inst
  | false => .i0
  | true => .i1

def bitOfInst : Inst → Bool
  | .i0 => false
  | .i1 => true

def opOf (w : CmdWord) : BitVec 6 := w.extractLsb' 0 6

/-- Bits 31:16 IMM, 15:8 SEL, 7 Z, 6 I, 5:0 OP (R85). -/
def unpack (w : CmdWord) : Fields where
  imm := w.extractLsb' 16 16
  sel := w.extractLsb' 8 8
  z := w.getLsbD 7
  n := instOfBit (w.getLsbD 6)
  op := opOf w

/-- `IMM<<16 | SEL<<8 | Z<<7 | I<<6 | OP` (R85). -/
def pack (f : Fields) : CmdWord :=
  f.imm.setWidth 32 <<< 16 ||| f.sel.setWidth 32 <<< 8 ||| (BitVec.ofBool f.z).setWidth 32 <<< 7
    ||| (BitVec.ofBool (bitOfInst f.n)).setWidth 32 <<< 6 ||| f.op.setWidth 32

/-! ### Selectors (R79 to R84, R89) -/

def channelOfSel : BitVec 8 → Option Channel
  | 0#8 => some .rx
  | 1#8 => some .tx
  | _ => none

def selOfChannel : Channel → BitVec 8
  | .rx => 0#8
  | .tx => 1#8

def frameLenOfSel : BitVec 8 → Option FrameLen
  | 0#8 => some .bits8
  | 1#8 => some .bits16
  | _ => none

def selOfFrameLen : FrameLen → BitVec 8
  | .bits8 => 0#8
  | .bits16 => 1#8

def directionOfSel : BitVec 8 → Option Direction
  | 0#8 => some .rx
  | 1#8 => some .tx
  | _ => none

def selOfDirection : Direction → BitVec 8
  | .rx => 0#8
  | .tx => 1#8

def flagOfSel : BitVec 8 → Option Flag
  | 0#8 => some .rxne
  | 1#8 => some .txe
  | 2#8 => some .chside
  | 3#8 => some .udr
  | 4#8 => some .crcerr
  | 5#8 => some .modf
  | 6#8 => some .ovr
  | 7#8 => some .bsy
  | _ => none

def selOfFlag : Flag → BitVec 8
  | .rxne => 0#8
  | .txe => 1#8
  | .chside => 2#8
  | .udr => 3#8
  | .crcerr => 4#8
  | .modf => 5#8
  | .ovr => 6#8
  | .bsy => 7#8

def sourceOfSel : BitVec 8 → Option Source
  | 0#8 => some .err
  | 1#8 => some .rxne
  | 2#8 => some .txe
  | _ => none

def selOfSource : Source → BitVec 8
  | .err => 0#8
  | .rxne => 1#8
  | .txe => 2#8

def regOfSel : BitVec 8 → Option Reg
  | 0#8 => some .ctrl1
  | 1#8 => some .ctrl2
  | 2#8 => some .sts
  | 3#8 => some .data
  | 4#8 => some .crcpoly
  | 5#8 => some .rxcrc
  | 6#8 => some .txcrc
  | _ => none

def selOfReg : Reg → BitVec 8
  | .ctrl1 => 0#8
  | .ctrl2 => 1#8
  | .sts => 2#8
  | .data => 3#8
  | .crcpoly => 4#8
  | .rxcrc => 5#8
  | .txcrc => 6#8

/-! ### CONFIGURE's CFG (R88) -/

def dirOfCode : BitVec 2 → DirMode
  | 0#2 => .fullDuplex
  | 1#2 => .halfDuplexRx
  | 2#2 => .halfDuplexTx
  | _ => .receiveOnly

def codeOfDir : DirMode → BitVec 2
  | .fullDuplex => 0#2
  | .halfDuplexRx => 1#2
  | .halfDuplexTx => 2#2
  | .receiveOnly => 3#2

def roleOfBit (b : Bool) : Role := if b then .master else .slave
def frameOfBit (b : Bool) : FrameLen := if b then .bits16 else .bits8
def cpolOfBit (b : Bool) : Polarity := if b then .idleHigh else .idleLow
def cphaOfBit (b : Bool) : Phase := if b then .secondEdge else .firstEdge
def nssOfBit (b : Bool) : SelectMode := if b then .software else .hardware
def orderOfBit (b : Bool) : BitOrder := if b then .lsbFirst else .msbFirst

def bitOfRole : Role → Bool
  | .slave => false
  | .master => true

def bitOfFrame : FrameLen → Bool
  | .bits8 => false
  | .bits16 => true

def bitOfCpol : Polarity → Bool
  | .idleLow => false
  | .idleHigh => true

def bitOfCpha : Phase → Bool
  | .firstEdge => false
  | .secondEdge => true

def bitOfNss : SelectMode → Bool
  | .hardware => false
  | .software => true

def bitOfOrder : BitOrder → Bool
  | .msbFirst => false
  | .lsbFirst => true

/-- The eight fields a CFG names; bits 15:11 are not read (R88). -/
def fieldsOfCfg (cfg : Word) : Ctrl1Fields where
  dir := dirOfCode (cfg.extractLsb' 0 2)
  role := roleOfBit (cfg.getLsbD 2)
  frame := frameOfBit (cfg.getLsbD 3)
  cpol := cpolOfBit (cfg.getLsbD 4)
  cpha := cphaOfBit (cfg.getLsbD 5)
  nss := nssOfBit (cfg.getLsbD 6)
  baud := cfg.extractLsb' 7 3
  order := orderOfBit (cfg.getLsbD 10)

/-- The CFG of eight fields, bits 15:11 zero (R88). -/
def cfgOfFields (c : Ctrl1Fields) : Word :=
  bit (bitOfOrder c.order) 10 ||| c.baud.setWidth 16 <<< 7 ||| bit (bitOfNss c.nss) 6 ||| bit (bitOfCpha c.cpha) 5
    ||| bit (bitOfCpol c.cpol) 4 ||| bit (bitOfFrame c.frame) 3 ||| bit (bitOfRole c.role) 2
    ||| (codeOfDir c.dir).setWidth 16
where
  bit (b : Bool) (k : Nat) : Word := (BitVec.ofBool b).setWidth 16 <<< k

/-! ### The decoder (R86 to R91) -/

/-- A command with no SEL and no IMM. -/
def plainForm (f : Fields) (i : Instr) : Option Instr :=
  if f.sel = 0#8 ∧ f.imm = 0#16 then some i else none

/-- A command with a SEL and no IMM. -/
def selForm {α : Type} (f : Fields) (operand : BitVec 8 → Option α) (k : α → Instr) : Option Instr :=
  if f.imm = 0#16 then (operand f.sel).map k else none

/-- A command with an IMM and no SEL. -/
def immForm (f : Fields) (k : BitVec 16 → Instr) : Option Instr :=
  if f.sel = 0#8 then some (k f.imm) else none

/-- BZ, BNZ and HALT also need I = 0 (R89). -/
def noInst (f : Fields) (i : Option Instr) : Option Instr :=
  if f.n = .i0 then i else none

/-- The one-word commands, by opcode (R89); every other opcode is reserved (R91 (a)), but for CONFIGURE's. -/
def decodeOneWord (f : Fields) : Option Instr :=
  if f.z then none else
  match f.op with
  | 0x01#6 => plainForm f (.reset f.n)
  | 0x03#6 => plainForm f (.enable f.n)
  | 0x04#6 => plainForm f (.disable f.n)
  | 0x05#6 => selForm f channelOfSel (.dmaen f.n)
  | 0x06#6 => selForm f channelOfSel (.dmadis f.n)
  | 0x07#6 => immForm f (.txdata f.n)
  | 0x08#6 => plainForm f (.rxdata f.n)
  | 0x09#6 => plainForm f (.ssiset f.n)
  | 0x0A#6 => plainForm f (.ssiclr f.n)
  | 0x0B#6 => plainForm f (.ssoeen f.n)
  | 0x0C#6 => plainForm f (.ssoedis f.n)
  | 0x0D#6 => selForm f frameLenOfSel (.setframe f.n)
  | 0x0E#6 => selForm f directionOfSel (.setdir f.n)
  | 0x0F#6 => plainForm f (.crcen f.n)
  | 0x10#6 => plainForm f (.crcdis f.n)
  | 0x11#6 => plainForm f (.crcnext f.n)
  | 0x12#6 => plainForm f (.rdtxcrc f.n)
  | 0x13#6 => plainForm f (.rdrxcrc f.n)
  | 0x14#6 => plainForm f (.rdpoly f.n)
  | 0x15#6 => selForm f flagOfSel (.rdflag f.n)
  | 0x16#6 => selForm f sourceOfSel (.inten f.n)
  | 0x17#6 => selForm f sourceOfSel (.intdis f.n)
  | 0x18#6 => selForm f sourceOfSel (.rdint f.n)
  | 0x19#6 => selForm f flagOfSel (.clrflag f.n)
  | 0x1A#6 => selForm f sourceOfSel (.clrint f.n)
  | 0x1B#6 => selForm f regOfSel (.busrd f.n)
  | 0x1C#6 => (regOfSel f.sel).map fun r => .buswr f.n r f.imm
  | 0x1D#6 => noInst f (immForm f fun imm => .bz imm.toInt)
  | 0x1E#6 => noInst f (immForm f fun imm => .bnz imm.toInt)
  | 0x1F#6 => noInst f (plainForm f .halt)
  | _ => none

/-- CONFIGURE's opcode, which alone makes a command two words long (R87). -/
def isTwoWord (w : CmdWord) : Bool := opOf w == 0x02#6

/-- The command's length in words, from OP alone (R87). -/
def commandLength (w : CmdWord) : Nat := if isTwoWord w then 2 else 1

/-- A CONFIGURE's first word is legal: Z = 0, SEL = 0 and CFG[15:11] = 0 (R91 (b), (d), (e)). -/
def configureHeadOk (f : Fields) : Bool :=
  !f.z && f.sel == 0#8 && f.imm.extractLsb' 11 5 == 0#5

/-- A CONFIGURE's second word is legal: bits 31:16 are 0 (R86, R91 (e)). -/
def polyWordOk (w : CmdWord) : Bool := w.extractLsb' 16 16 == 0#16

/-- CONFIGURE from its first word's fields and the words after it. The first word's legality is looked at before the second
word is asked for (DEDUCED; log 5). -/
def decodeConfigure (f : Fields) (rest : List CmdWord) : Except Reason (Instr × List CmdWord) :=
  if configureHeadOk f then
    match rest with
    | [] => .error .truncated
    | w2 :: rest' =>
      if polyWordOk w2 then
        .ok (.configure f.n { toCtrl1Fields := fieldsOfCfg f.imm, poly := w2.extractLsb' 0 16 }, rest')
      else .error .illegal
  else .error .illegal

/-- The next command of a list of words and the words after it, or the reason it is refused (R87, R91). An empty list has no
command in it; a run never decodes one, since it ends there (70_reset_and_hazards.md R276). -/
def decode : List CmdWord → Except Reason (Instr × List CmdWord)
  | [] => .error .truncated
  | w :: rest =>
    if isTwoWord w then decodeConfigure (unpack w) rest
    else
      match decodeOneWord (unpack w) with
      | some i => .ok (i, rest)
      | none => .error .illegal

/-! ### The encoder -/

/-- A first word from its opcode, instance, selector and immediate, Z = 0. -/
def word (op : BitVec 6) (n : Inst) (sel : BitVec 8) (imm : BitVec 16) : CmdWord :=
  pack { imm, sel, z := false, n, op }

/-- The words of a command (R85 to R90). -/
def encode : Instr → List CmdWord
  | .reset n => [word 0x01#6 n 0 0]
  | .configure n c => [word 0x02#6 n 0 (cfgOfFields c.toCtrl1Fields), c.poly.setWidth 32]
  | .enable n => [word 0x03#6 n 0 0]
  | .disable n => [word 0x04#6 n 0 0]
  | .dmaen n ch => [word 0x05#6 n (selOfChannel ch) 0]
  | .dmadis n ch => [word 0x06#6 n (selOfChannel ch) 0]
  | .txdata n v => [word 0x07#6 n 0 v]
  | .rxdata n => [word 0x08#6 n 0 0]
  | .ssiset n => [word 0x09#6 n 0 0]
  | .ssiclr n => [word 0x0A#6 n 0 0]
  | .ssoeen n => [word 0x0B#6 n 0 0]
  | .ssoedis n => [word 0x0C#6 n 0 0]
  | .setframe n len => [word 0x0D#6 n (selOfFrameLen len) 0]
  | .setdir n d => [word 0x0E#6 n (selOfDirection d) 0]
  | .crcen n => [word 0x0F#6 n 0 0]
  | .crcdis n => [word 0x10#6 n 0 0]
  | .crcnext n => [word 0x11#6 n 0 0]
  | .rdtxcrc n => [word 0x12#6 n 0 0]
  | .rdrxcrc n => [word 0x13#6 n 0 0]
  | .rdpoly n => [word 0x14#6 n 0 0]
  | .rdflag n f => [word 0x15#6 n (selOfFlag f) 0]
  | .inten n src => [word 0x16#6 n (selOfSource src) 0]
  | .intdis n src => [word 0x17#6 n (selOfSource src) 0]
  | .rdint n src => [word 0x18#6 n (selOfSource src) 0]
  | .clrflag n f => [word 0x19#6 n (selOfFlag f) 0]
  | .clrint n src => [word 0x1A#6 n (selOfSource src) 0]
  | .busrd n r => [word 0x1B#6 n (selOfReg r) 0]
  | .buswr n r v => [word 0x1C#6 n (selOfReg r) v]
  | .bz off => [word 0x1D#6 .i0 0 (BitVec.ofInt 16 off)]
  | .bnz off => [word 0x1E#6 .i0 0 (BitVec.ofInt 16 off)]
  | .halt => [word 0x1F#6 .i0 0 0]

/-- The command's length in words (R87). -/
def Instr.length (i : Instr) : Nat := (encode i).length

/-! ### Command boundaries (42_control.md R190) -/

/-- Index `k` of the words is reached by decoding from their start, one command at a time; with `skip` the first word is the
second word of a CONFIGURE. Lengths go by OP alone (R87), so an illegal word counts by its OP (DEDUCED; log 6). -/
def boundaryFrom : Bool → List CmdWord → Nat → Bool
  | skip, _, 0 => !skip
  | _, [], _ + 1 => false
  | true, _ :: ws, k + 1 => boundaryFrom false ws k
  | false, w :: ws, k + 1 => boundaryFrom (isTwoWord w) ws k

/-- `k` is a command boundary of the stream (R190). -/
def isBoundary (prog : List CmdWord) (k : Nat) : Bool := boundaryFrom false prog k

/-! ### The opcode table's numbering of an instruction's bits -/

/-- The words of an instruction whose bits are `w`, bit 0 the least significant bit of the first word; every bit from `nbits`
on is 0. -/
def tableWords (nbits w : Nat) : List CmdWord :=
  let bits := w % 2 ^ nbits
  let w1 := BitVec.ofNat 32 bits
  if isTwoWord w1 then [w1, BitVec.ofNat 32 (bits / 2 ^ 32)] else [w1]

/-- The instruction the decoder reads from those words. -/
def decodeTableWord (nbits w : Nat) : Option Instr :=
  match decode (tableWords nbits w) with
  | .ok (i, _) => some i
  | .error _ => none

end Sys2Proof
end

