-- ==== Sys2Proof/Config.lean ====
section
/-! DEFINITION. The serial engine's events (60_exceptions.md R238), and what the spec leaves open: the named parameters of 00_scope.md
R9 and what free engines do. Each open value is an opaque constant, so that nothing can be proved from its value and every theorem
holds for all of them. The operations of Machine/ take the parameters as arguments. -/

namespace Sys2Proof

/-- `P_SEQ_INTERVENING` (60_exceptions.md R247): what an unrelated access does to an armed clear sequence. -/
inductive SeqIntervening where
  | keep | disarm
  deriving DecidableEq, Repr, Inhabited

/-- `P_MODF_FORCE` (60_exceptions.md R241): whether a mode fault also clears SPE and MSTR. -/
inductive ModfForce where
  | none | clearSpeMstr
  deriving DecidableEq, Repr, Inhabited

/-- `P_RX8_UPPER` (60_exceptions.md R238): the upper byte of a frame received in 8-bit mode. -/
inductive Rx8Upper where
  | zero | any
  deriving DecidableEq, Repr, Inhabited

/-- The serial engine's steps (60_exceptions.md R238). -/
inductive EngineEvent where
  | rx (d : Word)
  | txe
  | bsy (b : Bool)
  | chside (b : Bool)
  | ovr
  | udr
  | crcerr
  | modf
  | crcdone
  | txcrc (v : Word)
  | rxcrc (v : Word)
  deriving DecidableEq, Repr

/-- One turn of the engines: the events, each with its instance, that they perform between two steps of the bus master, in their
order (20_memory.md R60). -/
abbrev Turn := List (Inst × EngineEvent)

namespace Config

/-- The chip's `P_SEQ_INTERVENING`. OPEN in the spec (D22); log 2. -/
opaque seqIntervening : SeqIntervening

/-- The chip's `P_MODF_FORCE`. OPEN in the spec (D23); log 2. -/
opaque modfForce : ModfForce

/-- The chip's `P_RX8_UPPER`. OPEN in the spec (D25); log 2. -/
opaque rx8Upper : Rx8Upper

/-- The n-th draw of `P_RXBUF_RESET` (10_state.md R31, 70_reset_and_hazards.md R270). A free value; log 3. -/
opaque rxbufReset : Nat → Word

/-- The k-th turn of engines of which nothing is known: an endless sequence of events, any at all (60_exceptions.md R239). A free
value; log 1. -/
opaque engineTurns : Nat → Turn

/-- Which instance's block lies at the lower address. Part of `P_BASE`; log 8. -/
opaque lowerBlock : Inst

/-- The lower block's base address. Part of `P_BASE`; log 8. -/
opaque lowerBase : Nat

/-- How many addresses lie between the end of the lower block and the upper one. Part of `P_BASE`; log 8. -/
opaque baseGap : Nat

/-- `P_BASE` (20_memory.md R51): two base addresses whose blocks, 0x1C addresses each, do not overlap. -/
def base (n : Inst) : Nat :=
  if n = lowerBlock then lowerBase else lowerBase + 0x1C + baseGap

end Config

end Sys2Proof
end

