-- ==== Sys2Proof/Machine/State.lean ====
section
/-! DEFINITION. The state of the machine (10_state.md), the engine schedule and bus requests it can hold, and its reset values
(10_state.md R39, 70_reset_and_hazards.md R271, R273). -/

namespace Sys2Proof.Machine

/-- What the engines do after the turns a schedule lists: a cycle of turns for ever (an empty one: silence for ever), or the endless
sequence `Config.engineTurns`, of which nothing is known (60_exceptions.md R239). -/
inductive Later where
  | repeating (cycle : List Turn)
  | free
  deriving DecidableEq, Repr

/-- The schedule of the two engines, an endless sequence of turns held as plain data (20_memory.md R60; log 1): the turns listed, what
comes after them, and how many turns of the endless sequence are used up. -/
structure Schedule where
  ahead : List Turn
  later : Later
  drawn : Nat
  deriving DecidableEq, Repr

/-- Who makes a bus request: the one bus master of the model or another (00_scope.md R16). -/
inductive Master where
  | own | other
  deriving DecidableEq, Repr

/-- A bus request at an address, of a width in bits: a read, or a write of a value (20_memory.md R51 to R55). No command word
encodes one. -/
structure BusRequest where
  master : Master
  addr   : Nat
  width  : Nat
  data   : Option Word
  deriving DecidableEq, Repr

/-- The register block of one instance (10_state.md R24, with the ghost CFG_DONE of R36). -/
structure Block where
  /-- CTRL1 (R25). -/
  ctrl1 : Word
  /-- CTRL2 (R28). Bits 15:8 and 4:3 are wired to zero by the one read and the one write of it. -/
  ctrl2 : Word
  /-- STS bits 0 to 7 (R29). -/
  rxne : Bool
  txe : Bool
  chside : Bool
  udr : Bool
  crcerr : Bool
  modf : Bool
  ovr : Bool
  bsy : Bool
  /-- The write side of DATA (R30). -/
  txbuf : Word
  /-- The read side of DATA (R30). -/
  rxbuf : Word
  /-- CRCPOLY (R32). -/
  crcpoly : Word
  /-- TXCRC and RXCRC (R33). -/
  txcrc : Word
  rxcrc : Word
  /-- The latches of the clear state machine (R34). -/
  ovrArm : Bool
  modfArm : Bool
  /-- The ghost CFG_DONE (R36). -/
  cfgDone : Bool
  deriving DecidableEq, Repr

/-- The machine: both blocks and the command interpreter. -/
structure State where
  /-- The two register blocks (R24). -/
  inst0 : Block
  inst1 : Block
  /-- RES and OUT, oldest value first (R21). -/
  res : Word
  out : List Word
  /-- The command pointer, in command words (R22). -/
  pc : Nat
  /-- The command stream PROG (R22); no step changes it. -/
  prog : List CmdWord
  /-- HALTED and REFUSED (R23). -/
  halted : Bool
  refused : Option Reason
  /-- The MODEL's own field, not the spec's: what the two engines still do, turn by turn (log 1). -/
  sched : Schedule
  /-- The MODEL's own field: bus requests waiting to be served before the next command (log 9). -/
  port : List BusRequest
  /-- The MODEL's own field: how many values of P_RXBUF_RESET have been drawn (log 3). -/
  draws : Nat
  deriving DecidableEq, Repr

/-- No step faults: the block has no trap and no exception (60_exceptions.md R230, R257). -/
inductive Fault where
  deriving DecidableEq, Repr

/-- Why a step has no answer. -/
inductive Refusal where
  /-- Raised by `exec` alone, for a command that has no meaning yet. Safe: the machine stops where the hardware goes on. No arm
  raises it now. -/
  | notModelled (mnemonic : String)
  deriving DecidableEq, Repr

/-- An instance's block after a reset that drew `draw` for RXBUF (R39). -/
def Block.reset (draw : Word) : Block where
  ctrl1 := 0x0000
  ctrl2 := 0x0000
  rxne := false
  txe := true
  chside := false
  udr := false
  crcerr := false
  modf := false
  ovr := false
  bsy := false
  txbuf := 0x0000
  rxbuf := draw
  crcpoly := 0x0007
  txcrc := 0x0000
  rxcrc := 0x0000
  ovrArm := false
  modfArm := false
  cfgDone := false

/-- The machine at the start of a run (70_reset_and_hazards.md R273): both instances reset once (R271), no stream loaded
(log 7), engines of which nothing is known (log 1), no bus request (log 9). -/
def State.reset : State where
  inst0 := Block.reset (Config.rxbufReset 0)
  inst1 := Block.reset (Config.rxbufReset 1)
  res := 0x0000
  out := []
  pc := 0
  prog := []
  halted := false
  refused := none
  sched := { ahead := [], later := .free, drawn := 0 }
  port := []
  draws := 2

end Sys2Proof.Machine
end

