-- ==== Sys2Proof/Machine/Operands.lean ====
section
/-! DEFINITION. The register-level encodings (30_encoding.md Part A): field masks, the packing of a Configuration into CTRL1
and back, flags, interrupt sources, register offsets. -/

namespace Sys2Proof.Machine

/-- `zext_16` of a Boolean (00_scope.md R11). -/
def zext16 (b : Bool) : Word := if b then 0x0001 else 0x0000

/-! ### Masks (R70 to R74, R83) -/

def M_CPHA : Word := 0x0001
def M_CPOL : Word := 0x0002
def M_MSTR : Word := 0x0004
def M_BR : Word := 0x0038
def M_SPE : Word := 0x0040
def M_LSBF : Word := 0x0080
def M_SSI : Word := 0x0100
def M_SSM : Word := 0x0200
def M_RXONLY : Word := 0x0400
def M_FLEN : Word := 0x0800
def M_CRCNEXT : Word := 0x1000
def M_CRCEN : Word := 0x2000
def M_BDOE : Word := 0x4000
def M_BDM : Word := 0x8000

/-- The CTRL1 bits CONFIGURE keeps (R71). -/
def PRESERVE : Word := 0x3040

/-- The CTRL1 bits the eight configuration fields can set (R72). -/
def CFG_MASK : Word := 0xCEBF

def M_RXDMAEN : Word := 0x0001
def M_TXDMAEN : Word := 0x0002
def M_SSOE : Word := 0x0004
def M_ERRIE : Word := 0x0020
def M_RXNEIE : Word := 0x0040
def M_TXEIE : Word := 0x0080

/-- The implemented bits of CTRL2 (R73). -/
def CTRL2_IMPL : Word := 0x00E7

def F_RXNE : Word := 0x0001
def F_TXE : Word := 0x0002
def F_CHSIDE : Word := 0x0004
def F_UDR : Word := 0x0008
def F_CRCERR : Word := 0x0010
def F_MODF : Word := 0x0020
def F_OVR : Word := 0x0040
def F_BSY : Word := 0x0080
def ERR_FLAGS : Word := 0x0078

/-- What SETDIR's TX branch ORs in (R83). -/
def DIR_TX_BIT : Word := 0x4000

/-- What SETDIR's RX branch ANDs with (R83). -/
def DIR_RX_MASK : Word := 0xBFFF

/-! ### CTRL1's fields -/

def flen (ctrl1 : Word) : Bool := ctrl1.getLsbD 11
def spe (ctrl1 : Word) : Bool := ctrl1.getLsbD 6
def mstr (ctrl1 : Word) : Bool := ctrl1.getLsbD 2
def ssi (ctrl1 : Word) : Bool := ctrl1.getLsbD 8
def ssm (ctrl1 : Word) : Bool := ctrl1.getLsbD 9

/-! ### Packing a Configuration (R75 to R77) -/

/-- The divisor a baud-rate code selects (R75). -/
def divisor (k : BitVec 3) : Nat := 2 ^ (k.toNat + 1)

def encDir : DirMode → Word
  | .fullDuplex => 0x0000
  | .halfDuplexRx => M_BDM
  | .halfDuplexTx => M_BDM ||| M_BDOE
  | .receiveOnly => M_RXONLY

def encRole : Role → Word
  | .slave => 0x0000
  | .master => M_MSTR

/-- Also SETFRAME's length encoding (R82). -/
def encFrame : FrameLen → Word
  | .bits8 => 0x0000
  | .bits16 => M_FLEN

def encCpol : Polarity → Word
  | .idleLow => 0x0000
  | .idleHigh => M_CPOL

def encCpha : Phase → Word
  | .firstEdge => 0x0000
  | .secondEdge => M_CPHA

def encNss : SelectMode → Word
  | .hardware => 0x0000
  | .software => M_SSM

def encBaud (k : BitVec 3) : Word := k.setWidth 16 <<< 3

def encOrder : BitOrder → Word
  | .msbFirst => 0x0000
  | .lsbFirst => M_LSBF

/-- The OR of the eight field encodings (R77). -/
def encoded (c : Ctrl1Fields) : Word :=
  encDir c.dir ||| encRole c.role ||| encFrame c.frame ||| encCpol c.cpol ||| encCpha c.cpha ||| encNss c.nss
    ||| encBaud c.baud ||| encOrder c.order

/-- The direction mode that (BDM, BDOE, RXONLY) name, if any (R78). -/
def decodedDir : Bool → Bool → Bool → Option DirMode
  | false, false, false => some .fullDuplex
  | true, false, false => some .halfDuplexRx
  | true, true, false => some .halfDuplexTx
  | false, false, true => some .receiveOnly
  | false, true, _ | true, _, true => none

/-- The eight fields a CTRL1 value holds, `none` where its direction bits name no mode (R78). -/
def decoded (v : Word) : Option Ctrl1Fields :=
  (decodedDir (v.getLsbD 15) (v.getLsbD 14) (v.getLsbD 10)).map fun dir =>
    { dir
      role := if v.getLsbD 2 then .master else .slave
      frame := if v.getLsbD 11 then .bits16 else .bits8
      cpol := if v.getLsbD 1 then .idleHigh else .idleLow
      cpha := if v.getLsbD 0 then .secondEdge else .firstEdge
      nss := if v.getLsbD 9 then .software else .hardware
      baud := v.extractLsb' 3 3
      order := if v.getLsbD 7 then .lsbFirst else .msbFirst }

/-- `DefaultConfig()` (41_configuration.md R141). -/
def defaultConfig : Configuration where
  dir := .fullDuplex
  role := .slave
  frame := .bits8
  cpol := .idleLow
  cpha := .firstEdge
  nss := .hardware
  baud := 0
  order := .msbFirst
  poly := 0x0007

/-! ### Flags, sources, channels, registers (R79 to R81, R52) -/

/-- A flag's STS mask, `bit(n)` of its number (R79). -/
def flagMask : Flag → Word
  | .rxne => F_RXNE
  | .txe => F_TXE
  | .chside => F_CHSIDE
  | .udr => F_UDR
  | .crcerr => F_CRCERR
  | .modf => F_MODF
  | .ovr => F_OVR
  | .bsy => F_BSY

/-- An interrupt source's code, `(enable_mask << 8) | status_mask` (R80). -/
def sourceCode : Source → Word
  | .err => 0x2078
  | .rxne => 0x4001
  | .txe => 0x8002

/-- `en(s)`: the source's CTRL2 enable bit (R80). -/
def enMask (src : Source) : Word := sourceCode src >>> 8

/-- `st(s)`: the source's STS mask (R80). -/
def stMask (src : Source) : Word := sourceCode src &&& 0x00FF

/-- A DMA channel's CTRL2 bit (R81). -/
def channelMask : Channel → Word
  | .rx => M_RXDMAEN
  | .tx => M_TXDMAEN

/-- A register's byte offset in its block (20_memory.md R52). -/
def regOffset : Reg → Nat
  | .ctrl1 => 0x00
  | .ctrl2 => 0x04
  | .sts => 0x08
  | .data => 0x0C
  | .crcpoly => 0x10
  | .rxcrc => 0x14
  | .txcrc => 0x18

end Sys2Proof.Machine
end

