-- ==== Sys2Proof/Machine/Flags.lean ====
section
/-! DEFINITION. The status flags: the STS value (10_state.md R29), the clear state machine (60_exceptions.md R243), the engine
events that set them (R238), and the functions of the state the block puts out (R250 to R253, 43_status_interrupt.md R201,
R222). -/

namespace Sys2Proof.Machine

/-- `STSVAL` (R29). -/
def stsval (b : Block) : Word :=
  zext16 b.bsy <<< 7 ||| zext16 b.ovr <<< 6 ||| zext16 b.modf <<< 5 ||| zext16 b.crcerr <<< 4
    ||| zext16 b.udr <<< 3 ||| zext16 b.chside <<< 2 ||| zext16 b.txe <<< 1 ||| zext16 b.rxne

/-! ### The clear state machine -/

/-- The access kinds of R243. -/
inductive AccessKind where
  | dataRead | stsRead | ctrl1Read | ctrl1Write | other
  deriving DecidableEq, Repr

/-- An unrelated access leaves an armed latch armed under `keep` and clears it under `disarm` (R247). -/
def keepsArmed : SeqIntervening → Bool
  | .keep => true
  | .disarm => false

/-- The overrun part of `ClearStep` (R243, R244). -/
def clearOverrun (p : SeqIntervening) (k : AccessKind) (b : Block) : Block :=
  match k with
  | .stsRead => { b with ovr := b.ovr && !b.ovrArm, ovrArm := false }
  | .dataRead => { b with ovrArm := b.ovr || (b.ovrArm && keepsArmed p) }
  | .ctrl1Read | .ctrl1Write | .other => { b with ovrArm := b.ovrArm && keepsArmed p }

/-- The underrun part (R243, R245). -/
def clearUnderrun (k : AccessKind) (b : Block) : Block :=
  match k with
  | .stsRead => { b with udr := false }
  | .dataRead | .ctrl1Read | .ctrl1Write | .other => b

/-- The mode-fault part (R243, R246). -/
def clearModeFault (p : SeqIntervening) (k : AccessKind) (b : Block) : Block :=
  match k with
  | .ctrl1Write => { b with modf := b.modf && !b.modfArm, modfArm := false }
  | .stsRead => { b with modfArm := b.modf || (b.modfArm && keepsArmed p) }
  | .ctrl1Read => b
  | .dataRead | .other => { b with modfArm := b.modfArm && keepsArmed p }

/-- `ClearStep` (R243); its three parts touch disjoint state. -/
def clearStep (p : SeqIntervening) (k : AccessKind) (b : Block) : Block :=
  clearModeFault p k (clearUnderrun k (clearOverrun p k b))

/-! ### Engine events -/

/-- The frame `EV_RX(d)` puts into RXBUF: under `P_RX8_UPPER = zero` an 8-bit frame's upper byte is 0 (R238). Masking it makes
every event of a schedule one the spec admits (log 1). -/
def rxFrame (u : Rx8Upper) (long : Bool) (d : Word) : Word :=
  match u, long with
  | .zero, false => d &&& 0x00FF
  | .zero, true | .any, _ => d

/-- CTRL1 after `EV_MODF` (R241). -/
def modfCtrl1 (f : ModfForce) (ctrl1 : Word) : Word :=
  match f with
  | .none => ctrl1
  | .clearSpeMstr => ctrl1 &&& ~~~(M_SPE ||| M_MSTR)

/-- The effect of an engine event on its instance (R238). -/
def engineEvent (f : ModfForce) (u : Rx8Upper) (e : EngineEvent) (b : Block) : Block :=
  match e with
  | .rx d => { b with rxbuf := rxFrame u (flen b.ctrl1) d, rxne := true }
  | .txe => { b with txe := true }
  | .bsy v => { b with bsy := v }
  | .chside v => { b with chside := v }
  | .ovr => { b with ovr := true }
  | .udr => { b with udr := true }
  | .crcerr => { b with crcerr := true }
  | .modf => { b with modf := true, ctrl1 := modfCtrl1 f b.ctrl1 }
  | .crcdone => { b with ctrl1 := b.ctrl1 &&& ~~~M_CRCNEXT }
  | .txcrc v => { b with txcrc := v }
  | .rxcrc v => { b with rxcrc := v }

/-! ### Functions of the state -/

/-- `IntFlag(i, s)` (43_status_interrupt.md R201). CTRL2 is read as the bus reads it. -/
def intFlag (b : Block) (src : Source) : Bool :=
  (b.ctrl2 &&& CTRL2_IMPL &&& enMask src != 0) && (stsval b &&& stMask src != 0)

/-- `IRQ[i]` (60_exceptions.md R250). -/
def irq (b : Block) : Bool := intFlag b .err || intFlag b .rxne || intFlag b .txe

/-- `TXDMAREQ[i]` (R252). -/
def txDmaReq (b : Block) : Bool := (b.ctrl2 &&& M_TXDMAEN != 0) && b.txe

/-- `RXDMAREQ[i]` (R252). -/
def rxDmaReq (b : Block) : Bool := (b.ctrl2 &&& M_RXDMAEN != 0) && b.rxne

/-- The slave-select level the engine sees, from the level of the NSS pin, which is outside the block (R253). -/
def internalSelect (pin : Bool) (b : Block) : Bool := if ssm b.ctrl1 then ssi b.ctrl1 else pin

/-- `NSS_OE[i]` (R253). -/
def nssOutputEnable (b : Block) : Bool := (b.ctrl2 &&& M_SSOE != 0) && mstr b.ctrl1

/-- The implicit peripheral states (43_status_interrupt.md R222). -/
inductive PeripheralState where
  | reset | configured | enabledIdle | enabledBusy | error
  deriving DecidableEq, Repr

/-- `PState(i)`: the first line that holds wins (R222). -/
def pState (b : Block) : PeripheralState :=
  if b.udr || b.crcerr || b.modf || b.ovr then .error
  else if spe b.ctrl1 && b.bsy then .enabledBusy
  else if spe b.ctrl1 then .enabledIdle
  else if b.cfgDone then .configured
  else .reset

end Sys2Proof.Machine
end

