-- ==== Sys2Proof/Machine/Ops.lean ====
section
/-! DEFINITION. The named operations the meanings are made of: a block's bus read and write (40_register_access.md), the
engines' turns between them (20_memory.md R60), results, the command pointer, refusals, branches, the reset pulse, the bus port,
and the fetch. -/

namespace Sys2Proof.Machine

/-! ### Blocks -/

/-- The block of an instance (10_state.md R24). -/
def State.blk (s : State) : Inst → Block
  | .i0 => s.inst0
  | .i1 => s.inst1

/-- The state with an instance's block replaced. -/
def State.setBlk (s : State) (n : Inst) (b : Block) : State :=
  match n with
  | .i0 => { s with inst0 := b }
  | .i1 => { s with inst1 := b }

/-! ### One bus access of one block (R110 to R120) -/

/-- The access kind of a read (R120). -/
def readKind : Reg → AccessKind
  | .ctrl1 => .ctrl1Read
  | .sts => .stsRead
  | .data => .dataRead
  | .ctrl2 | .crcpoly | .rxcrc | .txcrc => .other

/-- The access kind of a write (R120). -/
def writeKind : Reg → AccessKind
  | .ctrl1 => .ctrl1Write
  | .ctrl2 | .sts | .data | .crcpoly | .rxcrc | .txcrc => .other

/-- What a read returns: the value before the read's own side effects (R110, R111, R116). -/
def readValue (r : Reg) (b : Block) : Word :=
  match r with
  | .ctrl1 => b.ctrl1
  | .ctrl2 => b.ctrl2 &&& CTRL2_IMPL
  | .sts => stsval b
  | .data => b.rxbuf
  | .crcpoly => b.crcpoly
  | .rxcrc => b.rxcrc
  | .txcrc => b.txcrc

/-- What a read does besides its clear step: a DATA read clears RXNE (R116). -/
def readEffect (r : Reg) (b : Block) : Block :=
  match r with
  | .data => { b with rxne := false }
  | .ctrl1 | .ctrl2 | .sts | .crcpoly | .rxcrc | .txcrc => b

/-- The block after a read of one register (R110, R111, R116). -/
def blockRead (p : SeqIntervening) (r : Reg) (b : Block) : Block :=
  clearStep p (readKind r) (readEffect r b)

/-- What a write stores (R112 to R115, R117, R119). -/
def writeEffect (r : Reg) (v : Word) (b : Block) : Block :=
  match r with
  | .ctrl1 => { b with ctrl1 := v }
  | .ctrl2 => { b with ctrl2 := v &&& CTRL2_IMPL }
  | .sts => { b with crcerr := b.crcerr && v.getLsbD 4 }
  | .data => { b with txbuf := v, txe := false }
  | .crcpoly => { b with crcpoly := v }
  | .rxcrc | .txcrc => b

/-- The block after a write of one register (R112 to R115, R117, R119). -/
def blockWrite (p : SeqIntervening) (r : Reg) (v : Word) (b : Block) : Block :=
  clearStep p (writeKind r) (writeEffect r v b)

/-! ### The engines' turns -/

/-- The turn a schedule has next. -/
def Schedule.head (c : Schedule) : Turn :=
  match c.ahead, c.later with
  | turn :: _, _ => turn
  | [], .repeating (turn :: _) => turn
  | [], .repeating [] => []
  | [], .free => Config.engineTurns c.drawn

/-- The schedule after that turn. -/
def Schedule.rest (c : Schedule) : Schedule :=
  match c.ahead, c.later with
  | _ :: turns, _ => { c with ahead := turns }
  | [], .repeating cycle => { c with ahead := cycle.tail }
  | [], .free => { c with drawn := c.drawn + 1 }

/-- The schedule after `k` turns. -/
def Schedule.drop : Nat → Schedule → Schedule
  | 0, c => c
  | k + 1, c => c.rest.drop k

/-- One instance's block after a turn: the turn's events of that instance, in their order. -/
def applyTurn (turn : Turn) (n : Inst) (b : Block) : Block :=
  turn.foldl (fun b e => if e.1 = n then engineEvent Config.modfForce Config.rx8Upper e.2 b else b) b

/-- One turn of the engines: the schedule's next turn, each of its events at its own instance. One turn stands before every step of
the bus master (R60, 60_exceptions.md R239; log 1). -/
def engineTurn (s : State) : State :=
  { s with
    inst0 := applyTurn s.sched.head .i0 s.inst0
    inst1 := applyTurn s.sched.head .i1 s.inst1
    sched := s.sched.rest }

/-! ### Bus primitives -/

/-- `BusRead(i, X)` after an engine turn: the value and the state (00_scope.md R11, R12). -/
def busRead (n : Inst) (r : Reg) (s : State) : Word × State :=
  let s1 := engineTurn s
  (readValue r (s1.blk n), s1.setBlk n (blockRead Config.seqIntervening r (s1.blk n)))

/-- `BusWrite(i, X, v)` after an engine turn. -/
def busWrite (n : Inst) (r : Reg) (v : Word) (s : State) : State :=
  let s1 := engineTurn s
  s1.setBlk n (blockWrite Config.seqIntervening r v (s1.blk n))

/-- A bus read followed by a bus write of a function of the value read: two accesses (20_memory.md R62). -/
def readModifyWrite (n : Inst) (r : Reg) (f : Word → Word) (s : State) : State :=
  let (v, s1) := busRead n r s
  busWrite n r (f v) s1

/-! ### The interpreter -/

/-- `pc <- pc + L` (42_control.md R186). -/
def advance (words : Nat) (s : State) : State := { s with pc := s.pc + words }

/-- `RES <- v; emit(v)` (10_state.md R21). -/
def report (v : Word) (s : State) : State := { s with res := v, out := s.out ++ [v] }

/-- `raise Refused(reason)`, the one abnormal outcome of a run: the mark is set and the bus master stops for good; nothing else
changes (00_scope.md R11, 60_exceptions.md R256). The block has no trap to take and none to return from (R257, R258). -/
def refuse (why : Reason) (s : State) : State := { s with refused := some why }

/-- `HALTED <- true` (42_control.md R192). -/
def halt (s : State) : State := { s with halted := true }

/-- A read of one register into RES and OUT. -/
def readToResult (n : Inst) (r : Reg) (s : State) : State :=
  let (v, s1) := busRead n r s
  report v s1

/-- `t` is a command boundary of the stream or its end (42_control.md R190). -/
def isTarget (prog : List CmdWord) (t : Int) : Bool :=
  decide (0 ≤ t) && (isBoundary prog t.toNat || t.toNat == prog.length)

/-- Go to `pc + off` if the condition holds, else to `pc + 1`; refused if that is no target (R190). -/
def branchIf (taken : Bool) (off : Int) (s : State) : State :=
  let s1 := engineTurn s
  let t : Int := if taken then s1.pc + off else s1.pc + 1
  if isTarget s1.prog t then { s1 with pc := t.toNat } else refuse .badTarget s1

/-- `ResetPulse(i)`: every element of the instance to its reset value, RXBUF to a fresh draw (70_reset_and_hazards.md R270). -/
def resetPulse (n : Inst) (s : State) : State :=
  let s1 := engineTurn s
  { s1.setBlk n (Block.reset (Config.rxbufReset s1.draws)) with draws := s1.draws + 1 }

/-- The ghost CFG_DONE (10_state.md R36). -/
def markConfigured (n : Inst) (s : State) : State := s.setBlk n { s.blk n with cfgDone := true }

/-! ### The bus port (20_memory.md R51 to R55, 00_scope.md R16) -/

/-- The fourteen mapped registers. -/
def mappedRegs : List (Inst × Reg) :=
  [(.i0, .ctrl1), (.i0, .ctrl2), (.i0, .sts), (.i0, .data), (.i0, .crcpoly), (.i0, .rxcrc), (.i0, .txcrc),
   (.i1, .ctrl1), (.i1, .ctrl2), (.i1, .sts), (.i1, .data), (.i1, .crcpoly), (.i1, .rxcrc), (.i1, .txcrc)]

/-- A register's bus address (R51, R52). -/
def regAddr (n : Inst) (r : Reg) : Nat := Config.base n + regOffset r

/-- The register at a bus address: its exact offset, else none (R54, R55). -/
def busTarget (addr : Nat) : Option (Inst × Reg) :=
  mappedRegs.find? fun x => addr == regAddr x.1 x.2

/-- Serve one bus request. A second master's is refused, then one of another width than 16 bits, then one at an unmapped address
(log 9); any other is the bus primitive, and a read's value goes to RES and OUT as every returned value does. -/
def serveRequest (q : BusRequest) (s : State) : State :=
  match q.master with
  | .other => refuse .secondMaster (engineTurn s)
  | .own =>
    if q.width = 16 then
      match busTarget q.addr with
      | none => refuse .unmapped (engineTurn s)
      | some (n, r) =>
        match q.data with
        | none => readToResult n r s
        | some v => busWrite n r v s
    else refuse .badWidth (engineTurn s)

/-! ### Fetching -/

/-- The bus master takes no further step: HALTED, REFUSED, or the end of the stream (70_reset_and_hazards.md R276). -/
def stopped (s : State) : Bool := s.halted || s.refused.isSome || s.pc == s.prog.length

/-- The command at the pc. A pc inside a command or beyond the stream is refused (10_state.md R22). -/
def fetch (prog : List CmdWord) (pc : Nat) : Except Reason Instr :=
  if isBoundary prog pc then (decode (prog.drop pc)).map Prod.fst else .error .badTarget

/-- The words before the pc that keep it a command boundary: those of the stream, or HALTs where the pc is no boundary of it. -/
def wordsBefore (prog : List CmdWord) (pc : Nat) : List CmdWord :=
  if isBoundary prog pc then prog.take pc else List.replicate pc 0x0000001F#32

/-- The state in which the given words are the next to be fetched: in the stream at the pc, with no mark and no bus request that
would come before them. -/
def placeAtPc (ws : List CmdWord) (s : State) : State :=
  { s with
    prog := wordsBefore s.prog s.pc ++ ws ++ s.prog.drop (s.pc + ws.length)
    halted := false
    refused := none
    port := [] }

end Sys2Proof.Machine
end

