-- ==== Sys2Proof/Machine/Caller.lean ====
section
/-! DEFINITION. The caller control commands (42_control.md section 8). They make no bus access; the engines have their turn
before each of them as before any step of the bus master (log 1). -/

namespace Sys2Proof.Machine

/-- BZ (R190). -/
def execBz (off : Int) (s : State) : Host.Outcome State Fault Refusal :=
  .next (branchIf (s.res == 0x0000) off s)

/-- BNZ (R191). -/
def execBnz (off : Int) (s : State) : Host.Outcome State Fault Refusal :=
  .next (branchIf (s.res != 0x0000) off s)

/-- HALT: pc is unchanged (R192). -/
def execHalt (s : State) : Host.Outcome State Fault Refusal :=
  .next (halt (engineTurn s))

end Sys2Proof.Machine
end

