-- ==== Sys2Proof/Machine/Configure.lean ====
section
/-! DEFINITION. CONFIGURE (41_configuration.md). -/

namespace Sys2Proof.Machine

/-- CONFIGURE: read CTRL1, write CTRL1, write CRCPOLY, three accesses in this order (R145, R149). -/
def execConfigure (n : Inst) (c : Configuration) (s : State) : Host.Outcome State Fault Refusal :=
  let s1 := readModifyWrite n .ctrl1 (fun v => v &&& PRESERVE ||| encoded c.toCtrl1Fields) s
  let s2 := busWrite n .crcpoly c.poly s1
  .next (advance 2 (markConfigured n s2))

end Sys2Proof.Machine
end

