-- ==== Sys2Proof/Machine/Control.lean ====
section
/-! DEFINITION. The control commands (42_control.md sections 1 to 7). Each advances pc by its length, one word (R186). -/

namespace Sys2Proof.Machine

/-! ### Reset, enable, disable -/

/-- RESET (R160). -/
def execReset (n : Inst) (s : State) : Host.Outcome State Fault Refusal :=
  .next (advance 1 (resetPulse n s))

/-- ENABLE (R161). -/
def execEnable (n : Inst) (s : State) : Host.Outcome State Fault Refusal :=
  .next (advance 1 (readModifyWrite n .ctrl1 (fun v => v ||| M_SPE) s))

/-- DISABLE (R162). -/
def execDisable (n : Inst) (s : State) : Host.Outcome State Fault Refusal :=
  .next (advance 1 (readModifyWrite n .ctrl1 (fun v => v &&& ~~~M_SPE) s))

/-! ### DMA request enables -/

/-- DMAEN (R163). -/
def execDmaen (n : Inst) (ch : Channel) (s : State) : Host.Outcome State Fault Refusal :=
  .next (advance 1 (readModifyWrite n .ctrl2 (fun v => v ||| channelMask ch) s))

/-- DMADIS (R164). -/
def execDmadis (n : Inst) (ch : Channel) (s : State) : Host.Outcome State Fault Refusal :=
  .next (advance 1 (readModifyWrite n .ctrl2 (fun v => v &&& ~~~(channelMask ch)) s))

/-! ### Data -/

/-- TXDATA (R165). -/
def execTxdata (n : Inst) (v : Word) (s : State) : Host.Outcome State Fault Refusal :=
  .next (advance 1 (busWrite n .data v s))

/-- RXDATA (R166). -/
def execRxdata (n : Inst) (s : State) : Host.Outcome State Fault Refusal :=
  .next (advance 1 (readToResult n .data s))

/-! ### Slave select -/

/-- SSISET (R167). -/
def execSsiset (n : Inst) (s : State) : Host.Outcome State Fault Refusal :=
  .next (advance 1 (readModifyWrite n .ctrl1 (fun v => v ||| M_SSI) s))

/-- SSICLR (R168). -/
def execSsiclr (n : Inst) (s : State) : Host.Outcome State Fault Refusal :=
  .next (advance 1 (readModifyWrite n .ctrl1 (fun v => v &&& ~~~M_SSI) s))

/-- SSOEEN (R169). -/
def execSsoeen (n : Inst) (s : State) : Host.Outcome State Fault Refusal :=
  .next (advance 1 (readModifyWrite n .ctrl2 (fun v => v ||| M_SSOE) s))

/-- SSOEDIS (R170). -/
def execSsoedis (n : Inst) (s : State) : Host.Outcome State Fault Refusal :=
  .next (advance 1 (readModifyWrite n .ctrl2 (fun v => v &&& ~~~M_SSOE) s))

/-! ### Frame length and direction -/

/-- SETFRAME: clear, then set; two read-modify-writes in this order (R172, R173). -/
def execSetframe (n : Inst) (len : FrameLen) (s : State) : Host.Outcome State Fault Refusal :=
  let s1 := readModifyWrite n .ctrl1 (fun v => v &&& ~~~M_FLEN) s
  .next (advance 1 (readModifyWrite n .ctrl1 (fun v => v ||| encFrame len) s1))

/-- What SETDIR writes: TX ORs in a bit, RX ANDs with a mask (R175, R176). -/
def directed (d : Direction) (v : Word) : Word :=
  match d with
  | .tx => v ||| DIR_TX_BIT
  | .rx => v &&& DIR_RX_MASK

/-- SETDIR (R175). -/
def execSetdir (n : Inst) (d : Direction) (s : State) : Host.Outcome State Fault Refusal :=
  .next (advance 1 (readModifyWrite n .ctrl1 (directed d) s))

/-! ### CRC -/

/-- CRCEN (R178). -/
def execCrcen (n : Inst) (s : State) : Host.Outcome State Fault Refusal :=
  .next (advance 1 (readModifyWrite n .ctrl1 (fun v => v ||| M_CRCEN) s))

/-- CRCDIS (R179). -/
def execCrcdis (n : Inst) (s : State) : Host.Outcome State Fault Refusal :=
  .next (advance 1 (readModifyWrite n .ctrl1 (fun v => v &&& ~~~M_CRCEN) s))

/-- CRCNEXT (R180). -/
def execCrcnext (n : Inst) (s : State) : Host.Outcome State Fault Refusal :=
  .next (advance 1 (readModifyWrite n .ctrl1 (fun v => v ||| M_CRCNEXT) s))

/-- RDTXCRC (R181). -/
def execRdtxcrc (n : Inst) (s : State) : Host.Outcome State Fault Refusal :=
  .next (advance 1 (readToResult n .txcrc s))

/-- RDRXCRC (R182). -/
def execRdrxcrc (n : Inst) (s : State) : Host.Outcome State Fault Refusal :=
  .next (advance 1 (readToResult n .rxcrc s))

/-- RDPOLY (R183). -/
def execRdpoly (n : Inst) (s : State) : Host.Outcome State Fault Refusal :=
  .next (advance 1 (readToResult n .crcpoly s))

/-! ### Raw register access -/

/-- BUSRD (R184). -/
def execBusrd (n : Inst) (r : Reg) (s : State) : Host.Outcome State Fault Refusal :=
  .next (advance 1 (readToResult n r s))

/-- BUSWR (R185). -/
def execBuswr (n : Inst) (r : Reg) (v : Word) (s : State) : Host.Outcome State Fault Refusal :=
  .next (advance 1 (busWrite n r v s))

end Sys2Proof.Machine
end

