-- ==== Sys2Proof/Machine/Status.lean ====
section
/-! DEFINITION. The status and interrupt commands (43_status_interrupt.md). -/

namespace Sys2Proof.Machine

/-- RDFLAG: one STS read, with all its side effects (R200). -/
def execRdflag (n : Inst) (f : Flag) (s : State) : Host.Outcome State Fault Refusal :=
  let (v, s1) := busRead n .sts s
  .next (advance 1 (report (zext16 (v &&& flagMask f != 0)) s1))

/-- INTEN (R202). -/
def execInten (n : Inst) (src : Source) (s : State) : Host.Outcome State Fault Refusal :=
  .next (advance 1 (readModifyWrite n .ctrl2 (fun v => v ||| enMask src) s))

/-- INTDIS (R203). -/
def execIntdis (n : Inst) (src : Source) (s : State) : Host.Outcome State Fault Refusal :=
  .next (advance 1 (readModifyWrite n .ctrl2 (fun v => v &&& ~~~(enMask src)) s))

/-- RDINT: a CTRL2 read, then an STS read; enable AND status (R205). -/
def execRdint (n : Inst) (src : Source) (s : State) : Host.Outcome State Fault Refusal :=
  let (e, s1) := busRead n .ctrl2 s
  let (v, s2) := busRead n .sts s1
  .next (advance 1 (report (zext16 ((e &&& enMask src != 0) && (v &&& stMask src != 0))) s2))

/-- The one STS write of both clear commands, 0xFFEF (R208, R209). -/
def clearCrcError (n : Inst) (s : State) : State := busWrite n .sts (~~~F_CRCERR) s

/-- CLRFLAG: its flag operand is ignored (R208, R211). -/
def execClrflag (n : Inst) (_f : Flag) (s : State) : Host.Outcome State Fault Refusal :=
  .next (advance 1 (clearCrcError n s))

/-- CLRINT: its source operand is ignored (R209, R211). -/
def execClrint (n : Inst) (_src : Source) (s : State) : Host.Outcome State Fault Refusal :=
  .next (advance 1 (clearCrcError n s))

end Sys2Proof.Machine
end

