-- ==== Sys2Proof/Machine/Dispatch.lean ====
section
/-! DEFINITION. One arm per command: the meaning it has. -/

namespace Sys2Proof.Machine

def exec (i : Instr) (s : State) : Host.Outcome State Fault Refusal :=
  match i with
  | .reset n => Sys2Proof.Machine.execReset n s
  | .configure n c => Sys2Proof.Machine.execConfigure n c s
  | .enable n => Sys2Proof.Machine.execEnable n s
  | .disable n => Sys2Proof.Machine.execDisable n s
  | .dmaen n ch => Sys2Proof.Machine.execDmaen n ch s
  | .dmadis n ch => Sys2Proof.Machine.execDmadis n ch s
  | .txdata n v => Sys2Proof.Machine.execTxdata n v s
  | .rxdata n => Sys2Proof.Machine.execRxdata n s
  | .ssiset n => Sys2Proof.Machine.execSsiset n s
  | .ssiclr n => Sys2Proof.Machine.execSsiclr n s
  | .ssoeen n => Sys2Proof.Machine.execSsoeen n s
  | .ssoedis n => Sys2Proof.Machine.execSsoedis n s
  | .setframe n len => Sys2Proof.Machine.execSetframe n len s
  | .setdir n d => Sys2Proof.Machine.execSetdir n d s
  | .crcen n => Sys2Proof.Machine.execCrcen n s
  | .crcdis n => Sys2Proof.Machine.execCrcdis n s
  | .crcnext n => Sys2Proof.Machine.execCrcnext n s
  | .rdtxcrc n => Sys2Proof.Machine.execRdtxcrc n s
  | .rdrxcrc n => Sys2Proof.Machine.execRdrxcrc n s
  | .rdpoly n => Sys2Proof.Machine.execRdpoly n s
  | .rdflag n f => Sys2Proof.Machine.execRdflag n f s
  | .inten n src => Sys2Proof.Machine.execInten n src s
  | .intdis n src => Sys2Proof.Machine.execIntdis n src s
  | .rdint n src => Sys2Proof.Machine.execRdint n src s
  | .clrflag n f => Sys2Proof.Machine.execClrflag n f s
  | .clrint n src => Sys2Proof.Machine.execClrint n src s
  | .busrd n r => Sys2Proof.Machine.execBusrd n r s
  | .buswr n r v => Sys2Proof.Machine.execBuswr n r v s
  | .bz off => Sys2Proof.Machine.execBz off s
  | .bnz off => Sys2Proof.Machine.execBnz off s
  | .halt => Sys2Proof.Machine.execHalt s

end Sys2Proof.Machine
end

