-- ==== Sys2Proof/Machine/Step.lean ====
section
/-! DEFINITION. One step of the machine: a stopped bus master leaves only the engines' turn (42_control.md R192); else a waiting
bus request is served; else the command at the pc is fetched and executed, or refused. -/

namespace Sys2Proof.Machine

def step (s : State) : Host.Outcome State Fault Refusal :=
  if stopped s then .next (engineTurn s)
  else
    match s.port with
    | q :: rest => .next (serveRequest q { s with port := rest })
    | [] =>
      match fetch s.prog s.pc with
      | .ok i => exec i s
      | .error why => .next (refuse why (engineTurn s))

/-- The state with the instruction whose bits are `w` placed where the next step fetches. It stands for the loading of a stream from
outside (log 7). -/
def State.withFetchWord (s : State) (nbits w : Nat) : State :=
  placeAtPc (tableWords nbits w) s

end Sys2Proof.Machine
end

