-- ==== Sys2Proof/Safety.lean ====
section
/-! DEFINITION. What counts as a good state and a good run, in the terms the statements use. -/

namespace Sys2Proof.Machine

/-- What every reachable block satisfies: an armed latch has its flag set (60_exceptions.md R249), and CTRL2 stores no reserved bit
(10_state.md R28). -/
abbrev Block.Inv (b : Block) : Prop :=
  (b.ovrArm = true → b.ovr = true) ∧ (b.modfArm = true → b.modf = true) ∧ b.ctrl2 &&& ~~~CTRL2_IMPL = 0

/-- Both blocks are good. -/
abbrev State.Inv (s : State) : Prop := s.inst0.Inv ∧ s.inst1.Inv

/-- The pc is a command boundary of the stream or its end (10_state.md R22). -/
abbrev State.pcInStream (s : State) : Prop := isTarget s.prog s.pc = true

/-- The run has ended normally (70_reset_and_hazards.md R276). -/
abbrev State.endedNormally (s : State) : Prop :=
  (s.halted = true ∨ s.pc = s.prog.length) ∧ s.refused = none

/-- The schedule's next `k` turns have no event in them. -/
def Schedule.quiet : Nat → Schedule → Bool
  | 0, _ => true
  | k + 1, c => c.head.isEmpty && c.rest.quiet k

/-- The engines perform no event in their next `k` turns: the premise on the schedule that a claim needs where the engines must not
act (60_exceptions.md R239). -/
def State.quiet (k : Nat) (s : State) : Bool := s.sched.quiet k

end Sys2Proof.Machine
end

