-- ==== Sys2Proof/Certificates/Slice0/Obligations.lean ====
section
/-! DEFINITION. The statements for the provers. `Sys2Proof.Claims` holds the words they are said in, written from the spec and not from
the model's definitions. Where a statement fixes what the engines do, it says so by a premise on the schedule
(60_exceptions.md R239); where it has no such premise, it holds whatever they do. -/

namespace Sys2Proof.Claims

open Sys2Proof.Machine

/-! ### The encoding -/

/-- One row of 30_encoding.md R89's table: how many SEL values are legal (from 0 on), the largest legal IMM, and whether I must
be 0. -/
structure Row where
  sels    : Nat
  immMax  : Nat
  noInst  : Bool

/-- R89's table by opcode; `none` for the reserved opcodes of R91 (a). CONFIGURE's IMM has bits 15:11 zero (R88). -/
def rowOf (op : Nat) : Option Row :=
  if op = 0x02 then some ⟨1, 0x07FF, false⟩
  else if op = 0x05 ∨ op = 0x06 ∨ op = 0x0D ∨ op = 0x0E then some ⟨2, 0, false⟩
  else if op = 0x07 then some ⟨1, 0xFFFF, false⟩
  else if op = 0x15 ∨ op = 0x19 then some ⟨8, 0, false⟩
  else if op = 0x16 ∨ op = 0x17 ∨ op = 0x18 ∨ op = 0x1A then some ⟨3, 0, false⟩
  else if op = 0x1B then some ⟨7, 0, false⟩
  else if op = 0x1C then some ⟨7, 0xFFFF, false⟩
  else if op = 0x1D ∨ op = 0x1E then some ⟨1, 0xFFFF, true⟩
  else if op = 0x1F then some ⟨1, 0, true⟩
  else if 0x01 ≤ op ∧ op ≤ 0x14 then some ⟨1, 0, false⟩
  else none

/-- The five cases of R91 for a word and the words after it. -/
def Illegal (w : CmdWord) (rest : List CmdWord) : Prop :=
  let op := w.toNat % 64
  let sel := w.toNat / 256 % 256
  let imm := w.toNat / 65536
  match rowOf op with
  | none => True
  | some row =>
    w.getLsbD 7 = true ∨ row.sels ≤ sel ∨ row.immMax < imm ∨ (row.noInst = true ∧ w.getLsbD 6 = true)
      ∨ (op = 0x02 ∧ ∃ w2 rest', rest = w2 :: rest' ∧ 65536 ≤ w2.toNat)

/-- The indices reached by decoding a stream from index 0, one command at a time (42_control.md R190). -/
inductive Reached (prog : List CmdWord) : Nat → Prop
  | start : Reached prog 0
  | next (k : Nat) (w : CmdWord) (hk : Reached prog k) (hw : prog[k]? = some w)
      (hfit : k + (if w.toNat % 64 = 2 then 2 else 1) ≤ prog.length) :
      Reached prog (k + (if w.toNat % 64 = 2 then 2 else 1))

/-! ### One access of a block, effect by effect -/

/-- The chip's answer to R247: an unrelated access keeps an armed latch. Statements that name it hold for both answers. -/
def keeps : Bool := keepsArmed Config.seqIntervening

/-- Any access but one of DATA read, STS read, CTRL1 read and CTRL1 write (60_exceptions.md R243, `OTHER`). -/
def afterOther (b : Block) : Block :=
  { b with ovrArm := b.ovrArm && keeps, modfArm := b.modfArm && keeps }

/-- A CTRL1 read: neutral for the mode-fault latch. -/
def afterCtrl1Read (b : Block) : Block := { b with ovrArm := b.ovrArm && keeps }

/-- A CTRL1 write: it completes an armed mode-fault clear. -/
def afterCtrl1Write (v : Word) (b : Block) : Block :=
  { b with ctrl1 := v, modf := b.modf && !b.modfArm, modfArm := false, ovrArm := b.ovrArm && keeps }

/-- An STS read: it clears UDR, completes an armed overrun clear, and arms the mode-fault clear while MODF is 1. -/
def afterStsRead (b : Block) : Block :=
  { b with
    udr := false
    ovr := b.ovr && !b.ovrArm
    ovrArm := false
    modfArm := b.modf || (b.modfArm && keeps) }

/-- A DATA read: it clears RXNE and arms the overrun clear while OVR is 1. -/
def afterDataRead (b : Block) : Block :=
  { b with rxne := false, ovrArm := b.ovr || (b.ovrArm && keeps), modfArm := b.modfArm && keeps }

/-- What a bus read returns (40_register_access.md). -/
def readOf (r : Reg) (b : Block) : Word :=
  match r with
  | .ctrl1 => b.ctrl1
  | .ctrl2 => b.ctrl2 &&& 0x00E7
  | .sts => stsval b
  | .data => b.rxbuf
  | .crcpoly => b.crcpoly
  | .rxcrc => b.rxcrc
  | .txcrc => b.txcrc

/-- The block after a bus read. -/
def afterRead (r : Reg) (b : Block) : Block :=
  match r with
  | .ctrl1 => afterCtrl1Read b
  | .sts => afterStsRead b
  | .data => afterDataRead b
  | .ctrl2 | .crcpoly | .rxcrc | .txcrc => afterOther b

/-- The block after a bus write. -/
def afterWrite (r : Reg) (v : Word) (b : Block) : Block :=
  match r with
  | .ctrl1 => afterCtrl1Write v b
  | .ctrl2 => afterOther { b with ctrl2 := v &&& 0x00E7 }
  | .sts => afterOther { b with crcerr := if v.getLsbD 4 then b.crcerr else false }
  | .data => afterOther { b with txbuf := v, txe := false }
  | .crcpoly => afterOther { b with crcpoly := v }
  | .rxcrc | .txcrc => afterOther b

/-- `ClearStep` as R243's pseudocode writes it; every condition reads the block before the step. -/
def clearStepText (p : SeqIntervening) (k : AccessKind) (b : Block) : Block :=
  let b1 :=
    if k = .stsRead ∧ b.ovrArm = true then { b with ovr := false, ovrArm := false }
    else if k = .dataRead ∧ b.ovr = true then { b with ovrArm := true }
    else if p = .disarm then { b with ovrArm := false }
    else b
  let b2 := if k = .stsRead ∧ b.udr = true then { b1 with udr := false } else b1
  if k = .ctrl1Write ∧ b.modfArm = true then { b2 with modf := false, modfArm := false }
  else if k = .stsRead ∧ b.modf = true then { b2 with modfArm := true }
  else if k = .ctrl1Read then b2
  else if p = .disarm then { b2 with modfArm := false }
  else b2

/-- R248's rows for OVR: (flag, latch) after an access, from a state of the table. -/
def ovrRow (p : SeqIntervening) (k : AccessKind) : Bool × Bool → Bool × Bool
  | (false, _) => (false, false)
  | (true, false) => if k = .dataRead then (true, true) else (true, false)
  | (true, true) =>
    match k with
    | .dataRead => (true, true)
    | .stsRead => (false, false)
    | .ctrl1Read | .ctrl1Write | .other => if p = .keep then (true, true) else (true, false)

/-- R248's rows for MODF. -/
def modfRow (p : SeqIntervening) (k : AccessKind) : Bool × Bool → Bool × Bool
  | (false, _) => (false, false)
  | (true, false) => if k = .stsRead then (true, true) else (true, false)
  | (true, true) =>
    match k with
    | .stsRead | .ctrl1Read => (true, true)
    | .ctrl1Write => (false, false)
    | .dataRead | .other => if p = .keep then (true, true) else (true, false)

/-! ### Commands -/

/-- The state a command of `words` words and `k` accesses of instance `n` leaves when the engines are quiet: the block, the pc, the
schedule's turns used up (log 1), and nothing else. -/
def after (k words : Nat) (n : Inst) (b : Block) (s : State) : State :=
  { s.setBlk n b with pc := s.pc + words, sched := s.sched.drop k }

/-- The same, with a value returned. -/
def afterValue (k words : Nat) (n : Inst) (v : Word) (b : Block) (s : State) : State :=
  { after k words n b s with res := v, out := s.out ++ [v] }

/-- `i` reads CTRL1 of instance `n` and writes back `f` of the value read, and is done: whatever the engines do, CTRL1 is left
with `f` of what the read gave; with quiet engines this is the whole next state. -/
def UpdatesCtrl1 (i : Instr) (n : Inst) (f : Word → Word) : Prop :=
  ∀ s : State,
    (∃ t, exec i s = .next t ∧ (t.blk n).ctrl1 = f ((engineTurn s).blk n).ctrl1
      ∧ t.pc = s.pc + 1 ∧ t.res = s.res ∧ t.out = s.out)
    ∧ (s.quiet 2 = true → exec i s = .next (after 2 1 n (afterCtrl1Write (f (s.blk n).ctrl1) (s.blk n)) s))

/-- `i` reads CTRL2 of instance `n` and writes back `f` of the value read. -/
def UpdatesCtrl2 (i : Instr) (n : Inst) (f : Word → Word) : Prop :=
  ∀ s : State,
    (∃ t, exec i s = .next t ∧ (t.blk n).ctrl2 = f (((engineTurn s).blk n).ctrl2 &&& 0x00E7) &&& 0x00E7
      ∧ t.pc = s.pc + 1 ∧ t.res = s.res ∧ t.out = s.out)
    ∧ (s.quiet 2 = true → exec i s
        = .next (after 2 1 n (afterOther { s.blk n with ctrl2 := f ((s.blk n).ctrl2 &&& 0x00E7) &&& 0x00E7 }) s))

/-- `i` reads register `r` of instance `n` into RES and OUT. -/
def ReturnsRegister (i : Instr) (n : Inst) (r : Reg) : Prop :=
  ∀ s : State,
    (∃ t, exec i s = .next t ∧ t.res = readOf r ((engineTurn s).blk n) ∧ t.out = s.out ++ [t.res] ∧ t.pc = s.pc + 1
      ∧ t.blk n = afterRead r ((engineTurn s).blk n))
    ∧ (s.quiet 1 = true → exec i s = .next (afterValue 1 1 n (readOf r (s.blk n)) (afterRead r (s.blk n)) s))

/-- `i` writes `v` to register `r` of instance `n`. -/
def WritesRegister (i : Instr) (n : Inst) (r : Reg) (v : Word) : Prop :=
  ∀ s : State,
    (∃ t, exec i s = .next t ∧ t.blk n = afterWrite r v ((engineTurn s).blk n)
      ∧ t.pc = s.pc + 1 ∧ t.res = s.res ∧ t.out = s.out)
    ∧ (s.quiet 1 = true → exec i s = .next (after 1 1 n (afterWrite r v (s.blk n)) s))

/-- The instance a command names, if any. -/
def instOf : Instr → Option Inst
  | .reset n | .configure n _ | .enable n | .disable n | .dmaen n _ | .dmadis n _ | .txdata n _ | .rxdata n
  | .ssiset n | .ssiclr n | .ssoeen n | .ssoedis n | .setframe n _ | .setdir n _ | .crcen n | .crcdis n
  | .crcnext n | .rdtxcrc n | .rdrxcrc n | .rdpoly n | .rdflag n _ | .inten n _ | .intdis n _ | .rdint n _
  | .clrflag n _ | .clrint n _ | .busrd n _ | .buswr n _ _ => some n
  | .bz _ | .bnz _ | .halt => none

/-- How many indivisible steps of the bus master a command takes: its bus accesses, or one where it has none. -/
def turnsOf : Instr → Nat
  | .configure _ _ => 3
  | .setframe _ _ => 4
  | .enable _ | .disable _ | .dmaen _ _ | .dmadis _ _ | .ssiset _ | .ssiclr _ | .ssoeen _ | .ssoedis _ | .setdir _ _
  | .crcen _ | .crcdis _ | .crcnext _ | .inten _ _ | .intdis _ _ | .rdint _ _ => 2
  | .reset _ | .txdata _ _ | .rxdata _ | .rdtxcrc _ | .rdrxcrc _ | .rdpoly _ | .rdflag _ _ | .clrflag _ _
  | .clrint _ _ | .busrd _ _ | .buswr _ _ _ | .bz _ | .bnz _ | .halt => 1

/-- The commands that return a value (10_state.md R21). -/
def returnsValue : Instr → Bool
  | .rxdata _ | .rdtxcrc _ | .rdrxcrc _ | .rdpoly _ | .rdflag _ _ | .rdint _ _ | .busrd _ _ => true
  | .reset _ | .configure _ _ | .enable _ | .disable _ | .dmaen _ _ | .dmadis _ _ | .txdata _ _ | .ssiset _ | .ssiclr _
  | .ssoeen _ | .ssoedis _ | .setframe _ _ | .setdir _ _ | .crcen _ | .crcdis _ | .crcnext _ | .inten _ _ | .intdis _ _
  | .clrflag _ _ | .clrint _ _ | .buswr _ _ _ | .bz _ | .bnz _ | .halt => false

/-- The commands that return a Boolean. -/
def returnsBool : Instr → Bool
  | .rdflag _ _ | .rdint _ _ => true
  | .rxdata _ | .rdtxcrc _ | .rdrxcrc _ | .rdpoly _ | .busrd _ _
  | .reset _ | .configure _ _ | .enable _ | .disable _ | .dmaen _ _ | .dmadis _ _ | .txdata _ _ | .ssiset _ | .ssiclr _
  | .ssoeen _ | .ssoedis _ | .setframe _ _ | .setdir _ _ | .crcen _ | .crcdis _ | .crcnext _ | .inten _ _ | .intdis _ _
  | .clrflag _ _ | .clrint _ _ | .buswr _ _ _ | .bz _ | .bnz _ | .halt => false

/-- The commands that write CTRL1 of instance `n` (60_exceptions.md R246). -/
def writesCtrl1 (n : Inst) : Instr → Prop
  | .configure m _ | .enable m | .disable m | .ssiset m | .ssiclr m | .setframe m _ | .setdir m _ | .crcen m | .crcdis m
  | .crcnext m => m = n
  | .buswr m r _ => m = n ∧ r = .ctrl1
  | .reset _ | .dmaen _ _ | .dmadis _ _ | .txdata _ _ | .rxdata _ | .ssoeen _ | .ssoedis _ | .rdtxcrc _ | .rdrxcrc _
  | .rdpoly _ | .rdflag _ _ | .inten _ _ | .intdis _ _ | .rdint _ _ | .clrflag _ _ | .clrint _ _ | .busrd _ _ | .bz _
  | .bnz _ | .halt => False

/-- The commands that read STS of instance `n`. -/
def readsSts (n : Inst) : Instr → Prop
  | .rdflag m _ | .rdint m _ => m = n
  | .busrd m r => m = n ∧ r = .sts
  | .reset _ | .configure _ _ | .enable _ | .disable _ | .dmaen _ _ | .dmadis _ _ | .txdata _ _ | .rxdata _ | .ssiset _
  | .ssiclr _ | .ssoeen _ | .ssoedis _ | .setframe _ _ | .setdir _ _ | .crcen _ | .crcdis _ | .crcnext _ | .rdtxcrc _
  | .rdrxcrc _ | .rdpoly _ | .inten _ _ | .intdis _ _ | .clrflag _ _ | .clrint _ _ | .buswr _ _ _ | .bz _ | .bnz _
  | .halt => False

/-- The commands that write STS of instance `n` with bit 4 = 0. -/
def clearsCrcErr (n : Inst) : Instr → Prop
  | .clrflag m _ | .clrint m _ => m = n
  | .buswr m r v => m = n ∧ r = .sts ∧ v.getLsbD 4 = false
  | .reset _ | .configure _ _ | .enable _ | .disable _ | .dmaen _ _ | .dmadis _ _ | .txdata _ _ | .rxdata _ | .ssiset _
  | .ssiclr _ | .ssoeen _ | .ssoedis _ | .setframe _ _ | .setdir _ _ | .crcen _ | .crcdis _ | .crcnext _ | .rdtxcrc _
  | .rdrxcrc _ | .rdpoly _ | .rdflag _ _ | .inten _ _ | .intdis _ _ | .rdint _ _ | .busrd _ _ | .bz _ | .bnz _
  | .halt => False

/-- A flag's state element (10_state.md R29). -/
def flagOf (b : Block) : Flag → Bool
  | .rxne => b.rxne
  | .txe => b.txe
  | .chside => b.chside
  | .udr => b.udr
  | .crcerr => b.crcerr
  | .modf => b.modf
  | .ovr => b.ovr
  | .bsy => b.bsy

/-- A source's enable bit of CTRL2 (30_encoding.md R80). -/
def enableBit : Source → Nat
  | .err => 5
  | .rxne => 6
  | .txe => 7

/-- A source's status condition (60_exceptions.md R251). -/
def condition (b : Block) : Source → Bool
  | .err => b.udr || b.crcerr || b.modf || b.ovr
  | .rxne => b.rxne
  | .txe => b.txe

/-- The bit pattern SETFRAME ORs in (30_encoding.md R82). -/
def lengthBits : FrameLen → Word
  | .bits8 => 0x0000
  | .bits16 => 0x0800

end Sys2Proof.Claims

open Sys2Proof Sys2Proof.Machine Sys2Proof.Claims

/-! ### Encoding -/

/-- Decoding the words of a well-formed command gives it back, whatever words follow. -/
def Obligations.DecodeOfEncode : Prop :=
  ∀ (i : Instr) (rest : List CmdWord), i.wellFormed = true → decode (encode i ++ rest) = .ok (i, rest)

/-- A decoded command is well-formed, and its encoding is exactly the words it was decoded from. -/
def Obligations.EncodeOfDecode : Prop :=
  ∀ (ws : List CmdWord) (i : Instr) (rest : List CmdWord),
    decode ws = .ok (i, rest) → i.wellFormed = true ∧ encode i ++ rest = ws

/-- R91: the refused encodings are exactly those of its cases (a) to (e). The premise sets apart a CONFIGURE in the last word of the
stream, which R87 refuses; CommandLengthByOpcode says what it gets. -/
def Obligations.IllegalExactlyAsListed : Prop :=
  ∀ (w : CmdWord) (rest : List CmdWord), (w.toNat % 64 = 2 → rest ≠ []) →
    (decode (w :: rest) = .error .illegal ↔ Illegal w rest)

/-- R87: the words a command takes, by OP alone; and a CONFIGURE with no word after it is refused, as truncated where its first word is
legal. That an illegal first word is refused as illegal first is the model's choice (DEDUCED; log 5). -/
def Obligations.CommandLengthByOpcode : Prop :=
  (∀ (w : CmdWord) (rest : List CmdWord) (i : Instr) (rest' : List CmdWord), decode (w :: rest) = .ok (i, rest') →
    rest' = rest.drop (if w.toNat % 64 = 2 then 1 else 0))
  ∧ ∀ w : CmdWord, w.toNat % 64 = 2 →
    (¬ Illegal w [] → decode [w] = .error .truncated) ∧ (Illegal w [] → decode [w] = .error .illegal)

/-- Words of the spec's own examples, one or two per family of commands. -/
def Obligations.ExampleWordsDecode : Prop :=
  decode [0x00000041] = .ok (.reset .i1, [])
  ∧ decode [0x00000002, 0x00000007] = .ok (.configure .i0 defaultConfig, [])
  ∧ decode [0x00000105] = .ok (.dmaen .i0 .tx, [])
  ∧ decode [0xBEEF0047] = .ok (.txdata .i1 0xBEEF, [])
  ∧ decode [0x0000010D] = .ok (.setframe .i0 .bits16, [])
  ∧ decode [0x0000004E] = .ok (.setdir .i1 .rx, [])
  ∧ decode [0x00000615] = .ok (.rdflag .i0 .ovr, [])
  ∧ decode [0x00000216] = .ok (.inten .i0 .txe, [])
  ∧ decode [0x0000051B] = .ok (.busrd .i0 .rxcrc, [])
  ∧ decode [0xFFFF011C] = .ok (.buswr .i0 .ctrl2 0xFFFF, [])
  ∧ decode [0xFFFE001E] = .ok (.bnz (-2), [])
  ∧ decode [0x0000005D] = .error .illegal

/-- `isBoundary` holds of the indices that decoding from index 0 reaches, and of no others (R190). That lengths go by OP past an
illegal word too is the model's choice (DEDUCED; log 6). -/
def Obligations.BoundariesAreTheReachedIndices : Prop :=
  ∀ (prog : List CmdWord) (k : Nat), isBoundary prog k = true ↔ Reached prog k

/-! ### Packing a Configuration -/

/-- R76's table. -/
def Obligations.FieldCodes : Prop :=
  (encDir .fullDuplex = 0x0000 ∧ encDir .halfDuplexRx = 0x8000 ∧ encDir .halfDuplexTx = 0xC000 ∧ encDir .receiveOnly = 0x0400)
  ∧ (encRole .slave = 0x0000 ∧ encRole .master = 0x0004)
  ∧ (encFrame .bits8 = 0x0000 ∧ encFrame .bits16 = 0x0800)
  ∧ (encCpol .idleLow = 0x0000 ∧ encCpol .idleHigh = 0x0002)
  ∧ (encCpha .firstEdge = 0x0000 ∧ encCpha .secondEdge = 0x0001)
  ∧ (encNss .hardware = 0x0000 ∧ encNss .software = 0x0200)
  ∧ (∀ k : BitVec 3, (encBaud k).toNat = k.toNat * 8 ∧ divisor k = 2 ^ (k.toNat + 1))
  ∧ (encOrder .msbFirst = 0x0000 ∧ encOrder .lsbFirst = 0x0080)

/-- R77: the OR of eight encodings that share no bit, within CFG_MASK. -/
def Obligations.PackingIsDisjoint : Prop :=
  ∀ c : Ctrl1Fields,
    encoded c = encDir c.dir ||| encRole c.role ||| encFrame c.frame ||| encCpol c.cpol ||| encCpha c.cpha
        ||| encNss c.nss ||| encBaud c.baud ||| encOrder c.order
    ∧ [encDir c.dir, encRole c.role, encFrame c.frame, encCpol c.cpol, encCpha c.cpha, encNss c.nss, encBaud c.baud,
        encOrder c.order].Pairwise (fun x y => x &&& y = 0)
    ∧ encoded c &&& ~~~(0xCEBF : Word) = 0

/-- R78, which the spec marks as derived: `decoded` inverts `encoded` under any other bits, reads only CFG_MASK, and gives nothing
exactly where (BDM, BDOE, RXONLY) is none of the four modes. -/
def Obligations.DecodedInvertsEncoded : Prop :=
  (∀ (c : Ctrl1Fields) (x : Word), decoded (x &&& ~~~(0xCEBF : Word) ||| encoded c) = some c)
  ∧ (∀ v : Word, decoded v = decoded (v &&& 0xCEBF))
  ∧ (∀ (v : Word) (c : Ctrl1Fields), decoded v = some c →
      encoded c = v &&& 0xCEBF ∧ divisor c.baud = 2 ^ (v.toNat / 8 % 8 + 1))
  ∧ ∀ v : Word, decoded v = none ↔
      (v.getLsbD 15, v.getLsbD 14, v.getLsbD 10)
        ∉ [(false, false, false), (true, false, false), (true, true, false), (false, false, true)]

/-! ### Bus accesses and the clear state machine -/

/-- R110, R111, R116: what a bus read of each register of a block returns, and the block it leaves: every element of it. That a read of
CTRL2 masks its reserved bits also in a block that stores one, which no run reaches, is the model's choice (DESIGN CHOICE; log 12). -/
def Obligations.BusReadOfEachRegister : Prop :=
  ∀ (r : Reg) (b : Block), readValue r b = readOf r b ∧ blockRead Config.seqIntervening r b = afterRead r b

/-- R112 to R115, R119, and for DATA what R117 says of the write: the block a bus write of each register leaves, every element of
it. -/
def Obligations.BusWriteOfEachRegister : Prop :=
  ∀ (r : Reg) (v : Word) (b : Block), blockWrite Config.seqIntervening r v b = afterWrite r v b

/-- R243: the clear step is the pseudocode's, for both values of the parameter, in every state, reachable or not. -/
def Obligations.ClearStepFollowsPseudocode : Prop :=
  ∀ (p : SeqIntervening) (k : AccessKind) (b : Block), clearStep p k b = clearStepText p k b

/-- R248's table, which the spec marks as derived: the three reachable states of OVR and of MODF, the two of UDR, the engine's set
events, and reset. -/
def Obligations.ClearMachineTable : Prop :=
  (∀ (p : SeqIntervening) (k : AccessKind) (b : Block), (b.ovrArm = true → b.ovr = true) →
    ((clearStep p k b).ovr, (clearStep p k b).ovrArm) = ovrRow p k (b.ovr, b.ovrArm))
  ∧ (∀ (p : SeqIntervening) (k : AccessKind) (b : Block), (b.modfArm = true → b.modf = true) →
    ((clearStep p k b).modf, (clearStep p k b).modfArm) = modfRow p k (b.modf, b.modfArm))
  ∧ (∀ (p : SeqIntervening) (k : AccessKind) (b : Block),
    (clearStep p k b).udr = (b.udr && k != .stsRead))
  ∧ (∀ (f : ModfForce) (u : Rx8Upper) (b : Block),
    ((engineEvent f u .ovr b).ovr, (engineEvent f u .ovr b).ovrArm) = (true, b.ovrArm)
    ∧ ((engineEvent f u .modf b).modf, (engineEvent f u .modf b).modfArm) = (true, b.modfArm)
    ∧ (engineEvent f u .udr b).udr = true)
  ∧ (∀ (p : SeqIntervening) (b : Block), (readValue .sts b).getLsbD 6 = b.ovr ∧ (readValue .sts b).getLsbD 3 = b.udr
    ∧ (blockRead p .sts b).ovrArm = false)
  ∧ ∀ v : Word, (Block.reset v).ovr = false ∧ (Block.reset v).ovrArm = false ∧ (Block.reset v).modf = false
    ∧ (Block.reset v).modfArm = false ∧ (Block.reset v).udr = false

/-- Overrun: RXDATA and then an STS read clear OVR, and the read still shows it; the other order leaves it set and armed; an access
between the halves keeps the clear or cancels it by the parameter. Which turns of the schedule fall where is the model's choice
(log 1). -/
def Obligations.OverrunClearSequence : Prop :=
  ∀ (n : Inst) (s : State), s.quiet 3 = true → (s.blk n).ovr = true →
    (∃ t1 t2, exec (.rxdata n) s = .next t1 ∧ exec (.busrd n .sts) t1 = .next t2
      ∧ t2.res.getLsbD 6 = true ∧ (t2.blk n).ovr = false ∧ (t2.blk n).ovrArm = false)
    ∧ ((s.blk n).ovrArm = false → ∃ t1 t2, exec (.busrd n .sts) s = .next t1 ∧ exec (.rxdata n) t1 = .next t2
      ∧ (t2.blk n).ovr = true ∧ (t2.blk n).ovrArm = true)
    ∧ ∀ v, ∃ t1 t2 t3, exec (.rxdata n) s = .next t1 ∧ exec (.txdata n v) t1 = .next t2
      ∧ exec (.busrd n .sts) t2 = .next t3 ∧ (t3.blk n).ovr = !keeps ∧ (t3.blk n).ovrArm = false

/-- Mode fault: an STS read and then ENABLE clear MODF under both values of the parameter; ENABLE without the STS read does not.
Which turns of the schedule fall where is the model's choice (log 1). -/
def Obligations.ModeFaultClearSequence : Prop :=
  ∀ (n : Inst) (f : Flag) (s : State), s.quiet 3 = true → (s.blk n).modf = true →
    (∃ t1 t2, exec (.rdflag n f) s = .next t1 ∧ exec (.enable n) t1 = .next t2
      ∧ (t1.blk n).modf = true ∧ (t1.blk n).modfArm = true ∧ (t2.blk n).modf = false ∧ (t2.blk n).modfArm = false)
    ∧ ((s.blk n).modfArm = false → ∃ t, exec (.enable n) s = .next t ∧ (t.blk n).modf = true)

/-! ### The engines -/

/-- R238's events, R27 and R241: what each changes, and nothing else. That an 8-bit frame's upper byte is masked under
`P_RX8_UPPER = zero` is the model's form of the rule's condition on d (log 1). -/
def Obligations.EngineEventEffects : Prop :=
  ∀ (f : ModfForce) (u : Rx8Upper) (b : Block),
    (∀ d, engineEvent f u (.rx d) b =
      { b with rxne := true, rxbuf := if u = .zero ∧ b.ctrl1.getLsbD 11 = false then d &&& 0x00FF else d })
    ∧ engineEvent f u .txe b = { b with txe := true }
    ∧ (∀ v, engineEvent f u (.bsy v) b = { b with bsy := v })
    ∧ (∀ v, engineEvent f u (.chside v) b = { b with chside := v })
    ∧ engineEvent f u .ovr b = { b with ovr := true }
    ∧ engineEvent f u .udr b = { b with udr := true }
    ∧ engineEvent f u .crcerr b = { b with crcerr := true }
    ∧ engineEvent f u .modf b =
      { b with modf := true, ctrl1 := if f = .clearSpeMstr then b.ctrl1 &&& 0xFFBB else b.ctrl1 }
    ∧ engineEvent f u .crcdone b = { b with ctrl1 := b.ctrl1 &&& 0xEFFF }
    ∧ (∀ v, engineEvent f u (.txcrc v) b = { b with txcrc := v })
    ∧ ∀ v, engineEvent f u (.rxcrc v) b = { b with rxcrc := v }

/-- The model's form of R60 and R239 (log 1). One turn stands before every bus access and none inside it, and the access touches its own
instance alone; a turn is the schedule's next one, applied event by event in its order, each to its own instance; and a schedule is
endless: the turns it lists, and then a cycle for ever (an empty one: silence), or the endless sequence of the free engines. What the
access returns and does is 40_register_access.md's, but for the masked CTRL2 read where no run stores a reserved bit, the model's choice
(DESIGN CHOICE; log 12). -/
def Obligations.EngineTurnAppliesItsEvents : Prop :=
  (∀ (n : Inst) (r : Reg) (v : Word) (s : State),
    busRead n r s = (readOf r ((engineTurn s).blk n), (engineTurn s).setBlk n (afterRead r ((engineTurn s).blk n)))
    ∧ busWrite n r v s = (engineTurn s).setBlk n (afterWrite r v ((engineTurn s).blk n)))
  ∧ (∀ s : State, s.sched.head = [] → engineTurn s = { s with sched := s.sched.rest })
  ∧ (∀ (s : State) (n : Inst) (e : EngineEvent) (es : Turn), s.sched.head = (n, e) :: es →
      engineTurn s = engineTurn
        { s.setBlk n (engineEvent Config.modfForce Config.rx8Upper e (s.blk n)) with
          sched := { s.sched.rest with ahead := es :: s.sched.rest.ahead } })
  ∧ ∀ (ahead cycle : List Turn) (d k : Nat),
      (Schedule.drop k { ahead, later := .repeating cycle, drawn := d }).head
        = (if k < ahead.length then ahead.getD k [] else cycle.getD ((k - ahead.length) % cycle.length) [])
      ∧ (Schedule.drop k { ahead, later := .free, drawn := d }).head
        = (if k < ahead.length then ahead.getD k [] else Config.engineTurns (d + (k - ahead.length)))

/-- The second half of R242: an error flag that a command leaves cleared was cleared by its own mechanism or by RESET of its
instance, whatever the engines do. -/
def Obligations.ErrorFlagsClearOnlyByTheirMechanism : Prop :=
  ∀ (i : Instr) (n : Inst) (s t : State), exec i s = .next t →
    ((s.blk n).crcerr = true → (t.blk n).crcerr = false → i = .reset n ∨ clearsCrcErr n i)
    ∧ ((s.blk n).udr = true → (t.blk n).udr = false → i = .reset n ∨ readsSts n i)
    ∧ ((s.blk n).ovr = true → (t.blk n).ovr = false → i = .reset n ∨ (readsSts n i ∧ (s.blk n).ovrArm = true))
    ∧ ((s.blk n).modf = true → (t.blk n).modf = false → i = .reset n ∨ (writesCtrl1 n i ∧ (s.blk n).modfArm = true))

/-! ### Invariants and whole-machine rules -/

/-- The start state meets both invariants. -/
def Obligations.StartMeetsInvariants : Prop :=
  State.reset.Inv ∧ State.reset.pcInStream

/-- Every step keeps the block invariant: armed latches have their flags set, and CTRL2 stores no reserved bit. -/
def Obligations.StepKeepsBlocksGood : Prop :=
  ∀ s t : State, s.Inv → step s = .next t → t.Inv

/-- R249, which the spec marks as derived: in every state reached from the start, under every stream, schedule of the engines and
sequence of bus requests, an armed latch has its flag set. The schedule and the requests are the model's forms (logs 1 and 9). -/
def Obligations.ArmedOnlyWithFlagSet : Prop :=
  ∀ (prog : List CmdWord) (sched : Schedule) (port : List BusRequest) (k : Nat) (t : State),
    core.run k { State.reset with prog := prog, sched := sched, port := port } = .next t →
    ∀ n, ((t.blk n).ovrArm = true → (t.blk n).ovr = true) ∧ ((t.blk n).modfArm = true → (t.blk n).modf = true)

/-- Every step keeps the pc on a command boundary or at the end of the stream. That a refusal leaves pc is deduced (DEDUCED; log 4),
and so is which indices past an illegal word are boundaries (DEDUCED; log 6). -/
def Obligations.StepKeepsPcOnBoundary : Prop :=
  ∀ s t : State, s.pcInStream → step s = .next t → t.pcInStream

/-- R64: no step changes the command stream. -/
def Obligations.StreamIsFixed : Prop :=
  ∀ s t : State, step s = .next t → t.prog = s.prog

/-- R23: both marks are off at the start, and no step takes one back. -/
def Obligations.MarksAreNeverCleared : Prop :=
  (State.reset.halted = false ∧ State.reset.refused = none)
  ∧ ∀ s t : State, step s = .next t →
    (s.halted = true → t.halted = true) ∧ ∀ why, s.refused = some why → t.refused = some why

/-- R21: RES and OUT at the start; a command that returns a value puts it into RES and at the end of OUT, a Boolean as 1 or 0; every
other command leaves both alone. -/
def Obligations.ResultsGoToResAndOut : Prop :=
  (State.reset.res = 0x0000 ∧ State.reset.out = [])
  ∧ ∀ (i : Instr) (s t : State), exec i s = .next t →
    (returnsValue i = true → t.out = s.out ++ [t.res])
    ∧ (returnsValue i = false → t.res = s.res ∧ t.out = s.out)
    ∧ (returnsBool i = true → t.res = 0x0001 ∨ t.res = 0x0000)

/-- R230: no command and no step faults or is left without an answer. That a refusal is a next state with its mark is the model's form
(log 4). -/
def Obligations.NothingFaults : Prop :=
  (∀ (i : Instr) (s : State), ∃ t, exec i s = .next t) ∧ ∀ s : State, ∃ t, step s = .next t

/-- What a command leaves alone outside the blocks, and how far it moves the pc (R186). How many turns of the schedule it uses
(log 1), that the waiting bus requests stay (log 9) and who draws (log 3) are the model's choices. -/
def Obligations.FrameOutsideTheBlocks : Prop :=
  ∀ (i : Instr) (s t : State), exec i s = .next t →
    t.prog = s.prog ∧ t.port = s.port ∧ t.sched = s.sched.drop (turnsOf i)
    ∧ (i ≠ .halt → t.halted = s.halted)
    ∧ ((∀ off, i ≠ .bz off ∧ i ≠ .bnz off) → t.refused = s.refused)
    ∧ ((∀ n, i ≠ .reset n) → t.draws = s.draws)
    ∧ ((∀ off, i ≠ .bz off ∧ i ≠ .bnz off) → i ≠ .halt → t.pc = s.pc + (encode i).length)

/-- R262: no access of one instance reads or writes the other; and a command that does not name instance `m` neither depends on its
block nor changes it but by the engines' turns. Which turns of the schedule fall where is the model's choice (log 1). -/
def Obligations.InstancesAreIsolated : Prop :=
  (∀ (n m : Inst) (r : Reg) (v : Word) (s : State) (b : Block), n ≠ m →
    (busRead n r s).2.blk m = (engineTurn s).blk m ∧ (busWrite n r v s).blk m = (engineTurn s).blk m
    ∧ (busRead n r (s.setBlk m b)).1 = (busRead n r s).1
    ∧ (busRead n r (s.setBlk m b)).2.blk n = (busRead n r s).2.blk n
    ∧ (busWrite n r v (s.setBlk m b)).blk n = (busWrite n r v s).blk n)
  ∧ ∀ (i : Instr) (m : Inst) (s t : State), instOf i ≠ some m → exec i s = .next t →
    t.blk m = (engineTurn^[turnsOf i] s).blk m
    ∧ ∀ (b : Block) (t' : State), exec i (s.setBlk m b) = .next t' → ∃ b', t' = t.setBlk m b'

/-- When the words at the pc decode to a command, and no bus request waits (log 9), the step is that command's. -/
def Obligations.StepRunsTheDecodedCommand : Prop :=
  ∀ (s : State) (i : Instr) (rest : List CmdWord), s.halted = false → s.refused = none → s.port = [] →
    isBoundary s.prog s.pc = true → decode (s.prog.drop s.pc) = .ok (i, rest) → step s = exec i s

/-- Words that do not decode, and a pc inside a command or beyond the stream, set REFUSED; the engines' turn apart, nothing else
changes (DEDUCED; log 4). Where the engines' turn falls is the model's choice (DESIGN CHOICE; log 1); which indices past an illegal
word are boundaries is deduced (DEDUCED; log 6). -/
def Obligations.FetchRefusals : Prop :=
  ∀ s : State, s.halted = false → s.refused = none → s.port = [] → s.pc ≠ s.prog.length →
    (isBoundary s.prog s.pc = false → step s = .next { engineTurn s with refused := some .badTarget })
    ∧ ∀ why, isBoundary s.prog s.pc = true → decode (s.prog.drop s.pc) = .error why →
      step s = .next { engineTurn s with refused := some why }

/-- The word placed by `withFetchWord` is the one the next step runs, in every state. The placing stands for the load of a stream;
it is the model's choice (log 7). -/
def Obligations.PlacedWordIsRun : Prop :=
  ∀ (s : State) (nbits w : Nat) (i : Instr), decodeTableWord nbits w = some i →
    step (s.withFetchWord nbits w) = exec i (s.withFetchWord nbits w)

/-! ### The bus port -/

/-- R51, R52, R54: every register answers at its base and offset, nothing else answers anywhere, and the blocks do not overlap (P_BASE:
log 8). -/
def Obligations.AddressMap : Prop :=
  (∀ (n : Inst) (r : Reg), busTarget (Config.base n + regOffset r) = some (n, r))
  ∧ (∀ (addr : Nat) (n : Inst) (r : Reg), busTarget addr = some (n, r) → addr = Config.base n + regOffset r)
  ∧ (Config.base .i0 + 0x1C ≤ Config.base .i1 ∨ Config.base .i1 + 0x1C ≤ Config.base .i0)
  ∧ [Reg.ctrl1, .ctrl2, .sts, .data, .crcpoly, .rxcrc, .txcrc].map regOffset = [0x00, 0x04, 0x08, 0x0C, 0x10, 0x14, 0x18]

/-- A bus request that waits is served by the next step of a machine that is not stopped. A second master's, one of another width
and one at an unmapped address are refused before they reach a register; a mapped 16-bit request is the bus access. That a request
comes before the next command, the order of the reasons, and that a read's value goes to RES and OUT, are the model's choice
(log 9). So is the one turn of the engines before a refused request (DESIGN CHOICE; log 1); that the refusal changes nothing but its
mark, pc included, is deduced (DEDUCED; log 4). -/
def Obligations.BusPortAnswers : Prop :=
  (∀ (s : State) (q : BusRequest) (rest : List BusRequest), s.halted = false → s.refused = none → s.pc ≠ s.prog.length →
    s.port = q :: rest → step s = .next (serveRequest q { s with port := rest }))
  ∧ ∀ (q : BusRequest) (s : State),
    (q.master = .other → serveRequest q s = { engineTurn s with refused := some .secondMaster })
    ∧ (q.master = .own → q.width ≠ 16 → serveRequest q s = { engineTurn s with refused := some .badWidth })
    ∧ (q.master = .own → q.width = 16 → (∀ n r, q.addr ≠ Config.base n + regOffset r) →
        serveRequest q s = { engineTurn s with refused := some .unmapped })
    ∧ ∀ n r, q.master = .own → q.width = 16 → q.addr = Config.base n + regOffset r →
        (q.data = none → serveRequest q s = report (busRead n r s).1 (busRead n r s).2)
        ∧ ∀ v, q.data = some v → serveRequest q s = busWrite n r v s

/-! ### Reset -/

/-- R273: the interpreter's start values, and each instance reset once (R271): every element at its value of R39, RXBUF some
draw. -/
def Obligations.StartOfRun : Prop :=
  State.reset.pc = 0 ∧ State.reset.res = 0x0000 ∧ State.reset.out = [] ∧ State.reset.halted = false
  ∧ State.reset.refused = none
  ∧ ∀ n, ∃ draw, State.reset.blk n =
      { ctrl1 := 0x0000, ctrl2 := 0x0000, rxne := false, txe := true, chside := false, udr := false, crcerr := false,
        modf := false, ovr := false, bsy := false, txbuf := 0x0000, rxbuf := draw, crcpoly := 0x0007, txcrc := 0x0000,
        rxcrc := 0x0000, ovrArm := false, modfArm := false, cfgDone := false }

/-- What the spec infers of a block after reset (its R272 and R251, marked derived): STS reads 0x0002, the interrupt mask is
all-disabled and IRQ low, the peripheral is disabled and in the state Reset; enabling TXE then makes IRQ high at once. -/
def Obligations.BlockAfterReset : Prop :=
  ∀ v : Word, stsval (Block.reset v) = 0x0002 ∧ (∀ src, intFlag (Block.reset v) src = false) ∧ irq (Block.reset v) = false
    ∧ (Block.reset v).ctrl1.getLsbD 6 = false ∧ pState (Block.reset v) = .reset
    ∧ irq { Block.reset v with ctrl2 := 0x0080 } = true

/-- RESET: every element of the instance takes its value of R39, RXBUF a fresh draw (log 3); the other instance, RES and OUT are
untouched; pc moves on by one. Which turns of the schedule fall where is the model's choice (log 1). -/
def Obligations.ResetCommand : Prop :=
  ∀ (n : Inst) (s : State), ∃ t, exec (.reset n) s = .next t
    ∧ t.blk n = { ctrl1 := 0x0000, ctrl2 := 0x0000, rxne := false, txe := true, chside := false, udr := false,
                  crcerr := false, modf := false, ovr := false, bsy := false, txbuf := 0x0000,
                  rxbuf := Config.rxbufReset s.draws, crcpoly := 0x0007, txcrc := 0x0000, rxcrc := 0x0000,
                  ovrArm := false, modfArm := false, cfgDone := false }
    ∧ (∀ m, m ≠ n → t.blk m = (engineTurn s).blk m)
    ∧ t.draws = s.draws + 1 ∧ t.pc = s.pc + 1 ∧ t.res = s.res ∧ t.out = s.out

/-! ### CONFIGURE -/

/-- CONFIGURE with quiet engines: the whole next state; and whatever the engines do, CRCPOLY, CFG_DONE and the pc. Which turns of
the schedule fall where is the model's choice (log 1). -/
def Obligations.ConfigureCommand : Prop :=
  ∀ (n : Inst) (c : Configuration) (s : State),
    (∃ t, exec (.configure n c) s = .next t ∧ (t.blk n).crcpoly = c.poly ∧ (t.blk n).cfgDone = true
      ∧ t.pc = s.pc + 2 ∧ t.res = s.res ∧ t.out = s.out)
    ∧ (s.quiet 3 = true → exec (.configure n c) s = .next (after 3 2 n
        { afterOther (afterCtrl1Write ((s.blk n).ctrl1 &&& 0x3040 ||| encoded c.toCtrl1Fields) (s.blk n)) with
          crcpoly := c.poly, cfgDone := true } s))

/-- R146, which the spec marks as derived. CONFIGURE writes `(old CTRL1 & 0x3040) | encoded(config)` to CTRL1, `old CTRL1` the value
its read gave: CTRL1 is left as that write and then the engines' turn before the last access leave it; and it is exactly that value
when no engine event comes after the write. That one turn stands before the last access, and which turn it is, is the model's choice
(DESIGN CHOICE; log 1). -/
def Obligations.ConfigureResult : Prop :=
  ∀ (n : Inst) (c : Configuration) (s : State), ∃ t, exec (.configure n c) s = .next t
    ∧ (t.blk n).ctrl1 = ((engineTurn (busWrite n .ctrl1 (((engineTurn s).blk n).ctrl1 &&& 0x3040 ||| encoded c.toCtrl1Fields)
        (busRead n .ctrl1 s).2)).blk n).ctrl1
    ∧ (State.quiet 1 { s with sched := s.sched.drop 2 } = true →
        (t.blk n).ctrl1 = ((engineTurn s).blk n).ctrl1 &&& 0x3040 ||| encoded c.toCtrl1Fields)

/-- R147, which the spec marks as derived: CONFIGURE applied twice leaves the block as applied once, with MODF_ARM 0 or 1 at the
start. Which turns of the schedule fall where is the model's choice (log 1). -/
def Obligations.ConfigureIsIdempotent : Prop :=
  ∀ (n : Inst) (c : Configuration) (s : State), s.quiet 6 = true →
    ∃ t1 t2, exec (.configure n c) s = .next t1 ∧ exec (.configure n c) t1 = .next t2 ∧ t2.blk n = t1.blk n

/-- R148, which the spec marks as derived: CONFIGURE does not enable the peripheral; from the reset state DefaultConfig leaves the
reset state, CFG_DONE apart. Which turns of the schedule fall where is the model's choice (log 1). -/
def Obligations.ConfigureDoesNotEnable : Prop :=
  (∀ (n : Inst) (c : Configuration) (s : State), s.quiet 3 = true →
    ∃ t, exec (.configure n c) s = .next t ∧ (t.blk n).ctrl1.getLsbD 6 = (s.blk n).ctrl1.getLsbD 6)
  ∧ ∀ (n : Inst) (v : Word) (s : State), s.quiet 3 = true → s.blk n = Block.reset v →
    ∃ t, exec (.configure n defaultConfig) s = .next t ∧ t.blk n = { Block.reset v with cfgDone := true }
      ∧ (t.blk n).ctrl1 = 0x0000 ∧ (t.blk n).crcpoly = 0x0007

/-! ### Control commands -/

/-- ENABLE and DISABLE. Which turns of the schedule fall where is the model's choice (log 1). -/
def Obligations.EnableAndDisable : Prop :=
  ∀ n : Inst, UpdatesCtrl1 (.enable n) n (fun v => v ||| 0x0040) ∧ UpdatesCtrl1 (.disable n) n (fun v => v &&& 0xFFBF)

/-- SSISET and SSICLR in CTRL1, SSOEEN and SSOEDIS in CTRL2. Which turns of the schedule fall where is the model's choice (log 1).
So is that a read of CTRL2 masks its reserved bits where no run stores one (log 12). -/
def Obligations.SlaveSelectControls : Prop :=
  ∀ n : Inst, UpdatesCtrl1 (.ssiset n) n (fun v => v ||| 0x0100) ∧ UpdatesCtrl1 (.ssiclr n) n (fun v => v &&& 0xFEFF)
    ∧ UpdatesCtrl2 (.ssoeen n) n (fun v => v ||| 0x0004) ∧ UpdatesCtrl2 (.ssoedis n) n (fun v => v &&& 0xFFFB)

/-- SETDIR: TX ORs in a bit, RX ANDs with a mask. Which turns of the schedule fall where is the model's choice (log 1). -/
def Obligations.SetDirection : Prop :=
  ∀ n : Inst, UpdatesCtrl1 (.setdir n .tx) n (fun v => v ||| 0x4000)
    ∧ UpdatesCtrl1 (.setdir n .rx) n (fun v => v &&& 0xBFFF)

/-- CRCEN, CRCDIS and CRCNEXT in CTRL1; RDTXCRC, RDRXCRC and RDPOLY. Which turns of the schedule fall where is the model's choice
(log 1). -/
def Obligations.CrcCommands : Prop :=
  ∀ n : Inst, UpdatesCtrl1 (.crcen n) n (fun v => v ||| 0x2000) ∧ UpdatesCtrl1 (.crcdis n) n (fun v => v &&& 0xDFFF)
    ∧ UpdatesCtrl1 (.crcnext n) n (fun v => v ||| 0x1000)
    ∧ ReturnsRegister (.rdtxcrc n) n .txcrc ∧ ReturnsRegister (.rdrxcrc n) n .rxcrc
    ∧ ReturnsRegister (.rdpoly n) n .crcpoly

/-- SETFRAME is its four accesses in the order of R172: CTRL1 has FLEN = 0 from the second on until the fourth, whatever the engines do
and whatever the length (R280); FLEN is left as asked; and with quiet engines the whole next state. That the events between the second and
the fourth access are the schedule's third and fourth turn, and that the upper byte of a frame received there is masked under
`P_RX8_UPPER = zero`, the clause on RXBUF, are the model's choice (DESIGN CHOICE; log 1). -/
def Obligations.SetFrameCommand : Prop :=
  ∀ (n : Inst) (len : FrameLen) (s : State),
    (let read1 := busRead n .ctrl1 s
     let s2 := busWrite n .ctrl1 (read1.1 &&& 0xF7FF) read1.2
     let read3 := busRead n .ctrl1 s2
     exec (.setframe n len) s = .next { busWrite n .ctrl1 (read3.1 ||| lengthBits len) read3.2 with pc := s.pc + 1 }
     ∧ (s2.blk n).ctrl1.getLsbD 11 = false ∧ (read3.2.blk n).ctrl1.getLsbD 11 = false
     ∧ ((engineTurn read3.2).blk n).ctrl1.getLsbD 11 = false)
    ∧ (∃ t, exec (.setframe n len) s = .next t ∧ (t.blk n).ctrl1.getLsbD 11 = decide (len = .bits16)
      ∧ t.pc = s.pc + 1 ∧ t.res = s.res ∧ t.out = s.out
      ∧ ∀ d, (s.sched.drop 2).head = [(n, .rx d)] ∧ (s.sched.drop 3).head = [] ∨ (s.sched.drop 3).head = [(n, .rx d)] →
        (t.blk n).rxbuf = if Config.rx8Upper = .zero then d &&& 0x00FF else d)
    ∧ (s.quiet 4 = true → exec (.setframe n len) s = .next (after 4 1 n
        (afterCtrl1Write ((s.blk n).ctrl1 &&& 0xF7FF ||| lengthBits len) (s.blk n)) s))

/-- R173, which the spec marks as derived: two SETFRAMEs leave FLEN equal to the second length and every other bit of CTRL1 as
before the first. The order within each is SetFrameCommand's. Which turns of the schedule fall where is the model's choice (log 1).
-/
def Obligations.SetFrameConverges : Prop :=
  ∀ (n : Inst) (len1 len2 : FrameLen) (s : State), s.quiet 8 = true →
    ∃ t1 t2, exec (.setframe n len1) s = .next t1 ∧ exec (.setframe n len2) t1 = .next t2
      ∧ (t2.blk n).ctrl1 = (s.blk n).ctrl1 &&& 0xF7FF ||| lengthBits len2

/-- DMAEN and DMADIS, each channel. Which turns of the schedule fall where is the model's choice (log 1). So is that a read of CTRL2
masks its reserved bits where no run stores one (log 12). -/
def Obligations.DmaRequestEnables : Prop :=
  ∀ n : Inst, UpdatesCtrl2 (.dmaen n .rx) n (fun v => v ||| 0x0001) ∧ UpdatesCtrl2 (.dmaen n .tx) n (fun v => v ||| 0x0002)
    ∧ UpdatesCtrl2 (.dmadis n .rx) n (fun v => v &&& 0xFFFE) ∧ UpdatesCtrl2 (.dmadis n .tx) n (fun v => v &&& 0xFFFD)

/-- INTEN and INTDIS, each source. Which turns of the schedule fall where is the model's choice (log 1). So is that a read of CTRL2
masks its reserved bits where no run stores one (log 12). -/
def Obligations.InterruptEnables : Prop :=
  ∀ n : Inst, UpdatesCtrl2 (.inten n .err) n (fun v => v ||| 0x0020) ∧ UpdatesCtrl2 (.inten n .rxne) n (fun v => v ||| 0x0040)
    ∧ UpdatesCtrl2 (.inten n .txe) n (fun v => v ||| 0x0080) ∧ UpdatesCtrl2 (.intdis n .err) n (fun v => v &&& 0xFFDF)
    ∧ UpdatesCtrl2 (.intdis n .rxne) n (fun v => v &&& 0xFFBF) ∧ UpdatesCtrl2 (.intdis n .txe) n (fun v => v &&& 0xFF7F)

/-- TXDATA and RXDATA. Which turns of the schedule fall where is the model's choice (log 1). -/
def Obligations.TransmitAndReceive : Prop :=
  ∀ n : Inst, (∀ v, WritesRegister (.txdata n v) n .data v) ∧ ReturnsRegister (.rxdata n) n .data

/-- BUSRD and BUSWR, each register. Which turns of the schedule fall where is the model's choice (log 1). So is that a read of CTRL2
masks its reserved bits where no run stores one (log 12). -/
def Obligations.RawAccess : Prop :=
  ∀ (n : Inst) (r : Reg), ReturnsRegister (.busrd n r) n r ∧ ∀ v, WritesRegister (.buswr n r v) n r v

/-! ### Status and interrupts -/

/-- STSVAL holds each flag in its bit and zeros above (R29, R79). -/
def Obligations.StatusBits : Prop :=
  ∀ b : Block, (∀ f, (stsval b &&& flagMask f != 0) = flagOf b f)
    ∧ [Flag.rxne, .txe, .chside, .udr, .crcerr, .modf, .ovr, .bsy].map flagMask
      = [0x0001, 0x0002, 0x0004, 0x0008, 0x0010, 0x0020, 0x0040, 0x0080]
    ∧ stsval b &&& 0xFF00 = 0

/-- RDFLAG: the flag as the STS read shows it, and the read's side effects whatever the flag. Which turns of the schedule fall where
is the model's choice (log 1). -/
def Obligations.ReadFlagCommand : Prop :=
  ∀ (n : Inst) (f : Flag) (s : State),
    (∃ t, exec (.rdflag n f) s = .next t
      ∧ t.res = (if flagOf ((engineTurn s).blk n) f then 0x0001 else 0x0000) ∧ t.out = s.out ++ [t.res]
      ∧ t.pc = s.pc + 1 ∧ t.blk n = afterStsRead ((engineTurn s).blk n))
    ∧ (s.quiet 1 = true → exec (.rdflag n f) s
        = .next (afterValue 1 1 n (if flagOf (s.blk n) f then 0x0001 else 0x0000) (afterStsRead (s.blk n)) s))

/-- RDINT: the enable as the CTRL2 read gave it and the status as the STS read gave it, the engines free in between; with quiet
engines the whole next state. Which turns of the schedule fall where is the model's choice (log 1). -/
def Obligations.ReadInterruptCommand : Prop :=
  ∀ (n : Inst) (src : Source) (s : State),
    (∃ t, exec (.rdint n src) s = .next t
      ∧ t.res = (if ((engineTurn s).blk n).ctrl2.getLsbD (enableBit src)
            && condition ((engineTurn (busRead n .ctrl2 s).2).blk n) src then 0x0001 else 0x0000)
      ∧ t.out = s.out ++ [t.res] ∧ t.pc = s.pc + 1)
    ∧ (s.quiet 2 = true → exec (.rdint n src) s
        = .next (afterValue 2 1 n (if (s.blk n).ctrl2.getLsbD (enableBit src) && condition (s.blk n) src then 0x0001 else 0x0000)
            (afterStsRead (afterOther (s.blk n))) s))

/-- R206, which the spec marks as derived: RDINT's four combinations, with no engine event between its reads: the enable term is
CTRL2's current bit, the status term the raw status. Which turns of the schedule fall where is the model's choice (log 1). -/
def Obligations.InterruptTruthTable : Prop :=
  ∀ (n : Inst) (src : Source) (s : State), s.quiet 2 = true →
    ∃ t, exec (.rdint n src) s = .next t ∧
      t.res = match (s.blk n).ctrl2 &&& 0x00E7 &&& enMask src != 0, stsval (s.blk n) &&& stMask src != 0 with
        | false, false => 0x0000
        | false, true => 0x0000
        | true, false => 0x0000
        | true, true => 0x0001

/-- CLRFLAG and CLRINT clear CRCERR and no other flag, whatever their operand; they write no other register and read none. Which
turns of the schedule fall where is the model's choice (log 1). -/
def Obligations.ClearCommands : Prop :=
  ∀ (n : Inst) (s : State),
    (∀ f, ∃ t, exec (.clrflag n f) s = .next t ∧ t.blk n = afterOther { (engineTurn s).blk n with crcerr := false }
      ∧ t.pc = s.pc + 1 ∧ t.res = s.res ∧ t.out = s.out)
    ∧ (∀ src f, exec (.clrint n src) s = exec (.clrflag n f) s)
    ∧ (s.quiet 1 = true → ∀ f, exec (.clrflag n f) s
        = .next (after 1 1 n (afterOther { s.blk n with crcerr := false }) s))

/-- R250 to R253: IRQ is the OR of the three sources, each its CTRL2 enable bit AND its status condition; the DMA request lines; the
internal slave select; the NSS output enable. -/
def Obligations.OutputLines : Prop :=
  ∀ b : Block, (∀ src, intFlag b src = (b.ctrl2.getLsbD (enableBit src) && condition b src))
    ∧ irq b = (b.ctrl2.getLsbD 5 && (b.udr || b.crcerr || b.modf || b.ovr) || b.ctrl2.getLsbD 6 && b.rxne
        || b.ctrl2.getLsbD 7 && b.txe)
    ∧ txDmaReq b = (b.ctrl2.getLsbD 1 && b.txe) ∧ rxDmaReq b = (b.ctrl2.getLsbD 0 && b.rxne)
    ∧ (∀ pin, internalSelect pin b = if b.ctrl1.getLsbD 9 then b.ctrl1.getLsbD 8 else pin)
    ∧ nssOutputEnable b = (b.ctrl2.getLsbD 2 && b.ctrl1.getLsbD 2)

/-- R222: the five implicit states, the first line that holds wins. -/
def Obligations.PeripheralStates : Prop :=
  ∀ b : Block,
    (pState b = .error ↔ b.udr = true ∨ b.crcerr = true ∨ b.modf = true ∨ b.ovr = true)
    ∧ (pState b ≠ .error →
      (pState b = .enabledBusy ↔ b.ctrl1.getLsbD 6 = true ∧ b.bsy = true)
      ∧ (pState b = .enabledIdle ↔ b.ctrl1.getLsbD 6 = true ∧ b.bsy = false)
      ∧ (pState b = .configured ↔ b.ctrl1.getLsbD 6 = false ∧ b.cfgDone = true)
      ∧ (pState b = .reset ↔ b.ctrl1.getLsbD 6 = false ∧ b.cfgDone = false))

/-- An overrun that is the only error, on an enabled and idle peripheral, is left by its clear sequence: the state is Error, then
Enabled-Idle (R223, which the spec marks as derived). Which turns of the schedule fall where is the model's choice (log 1). -/
def Obligations.ErrorIsNotASink : Prop :=
  ∀ (n : Inst) (s : State), s.quiet 2 = true → (s.blk n).ovr = true → (s.blk n).udr = false → (s.blk n).crcerr = false →
    (s.blk n).modf = false → (s.blk n).ctrl1.getLsbD 6 = true → (s.blk n).bsy = false →
    pState (s.blk n) = .error
    ∧ ∃ t1 t2, exec (.rxdata n) s = .next t1 ∧ exec (.busrd n .sts) t1 = .next t2 ∧ pState (t2.blk n) = .enabledIdle

/-! ### Caller control -/

/-- BZ and BNZ: to the target if the condition on RES holds, else to the next word; refused where that is neither a command boundary
nor the end. The engines' turn apart, nothing else changes. Where the engines' turn falls is the model's choice (DESIGN CHOICE;
log 1); that a refusal leaves pc and all else is deduced (DEDUCED; log 4), and so is which indices past an illegal word are
boundaries (DEDUCED; log 6). -/
def Obligations.Branches : Prop :=
  ∀ (off : Int) (s : State),
    (∀ t : Int, t = (if s.res = 0x0000 then (s.pc : Int) + off else s.pc + 1) →
      (0 ≤ t → (isBoundary s.prog t.toNat = true ∨ t.toNat = s.prog.length) →
        exec (.bz off) s = .next { engineTurn s with pc := t.toNat })
      ∧ (t < 0 ∨ (isBoundary s.prog t.toNat = false ∧ t.toNat ≠ s.prog.length) →
        exec (.bz off) s = .next { engineTurn s with refused := some .badTarget }))
    ∧ ∀ t : Int, t = (if s.res ≠ 0x0000 then (s.pc : Int) + off else s.pc + 1) →
      (0 ≤ t → (isBoundary s.prog t.toNat = true ∨ t.toNat = s.prog.length) →
        exec (.bnz off) s = .next { engineTurn s with pc := t.toNat })
      ∧ (t < 0 ∨ (isBoundary s.prog t.toNat = false ∧ t.toNat ≠ s.prog.length) →
        exec (.bnz off) s = .next { engineTurn s with refused := some .badTarget })

/-- HALT sets HALTED, pc unchanged; a run that is halted, refused or at the end of its stream takes no further step but the
engines'; it has ended normally if it was not refused. What a stopped machine's step is, is the model's form (log 4). Where the
engines' turn falls is its choice (log 1). -/
def Obligations.HaltEndsTheRun : Prop :=
  ∀ s : State, exec .halt s = .next { engineTurn s with halted := true }
    ∧ (s.halted = true ∨ s.refused ≠ none ∨ s.pc = s.prog.length → step s = .next (engineTurn s))
    ∧ (s.refused = none → State.endedNormally { engineTurn s with halted := true })
end

