-- ==== Sys2Proof/Laws/Decode.lean ====
section
/-! SUPPORT. The pieces of the command-word encoding: each part of a word read back as it was written. -/

namespace Sys2Proof

/-! ### Words -/

theorem instOfBit_bitOfInst (n : Inst) : instOfBit (bitOfInst n) = n := by cases n <;> rfl

theorem bitOfInst_instOfBit (b : Bool) : bitOfInst (instOfBit b) = b := by cases b <;> rfl

/-- A word's five fields, read back. -/
theorem unpack_pack (f : Fields) : unpack (pack f) = f := by
  obtain ⟨imm, sel, z, n, op⟩ := f
  simp only [unpack, pack, opOf]
  congr 1
  · ext i hi
    simp
    grind
  · ext i hi
    simp [show ¬ (8 + i < 8) by omega]
    grind
  · simp
  · simp [instOfBit_bitOfInst]
  · ext i hi
    simp [show i < 32 by omega, show i < 16 by omega, show i < 8 by omega, show i < 7 by omega, hi]

/-- A word is its five fields put together. -/
theorem pack_unpack (w : CmdWord) : pack (unpack w) = w := by
  apply BitVec.eq_of_getLsbD_eq
  intro i hi
  simp only [pack, unpack, opOf, bitOfInst_instOfBit, BitVec.getLsbD_or, BitVec.getLsbD_shiftLeft,
    BitVec.getLsbD_setWidth, BitVec.getLsbD_extractLsb', BitVec.getLsbD_ofBool]
  interval_cases i <;> simp

theorem opOf_word (op : BitVec 6) (n : Inst) (sel : BitVec 8) (imm : BitVec 16) : opOf (word op n sel imm) = op :=
  congrArg Fields.op (unpack_pack { imm, sel, z := false, n, op })

theorem unpack_word (op : BitVec 6) (n : Inst) (sel : BitVec 8) (imm : BitVec 16) :
    unpack (word op n sel imm) = { imm, sel, z := false, n, op } := unpack_pack _

theorem isTwoWord_word (op : BitVec 6) (n : Inst) (sel : BitVec 8) (imm : BitVec 16) :
    isTwoWord (word op n sel imm) = (op == 0x02#6) := by rw [isTwoWord, opOf_word]

/-! ### Selectors -/

theorem channelOfSel_selOfChannel (ch : Channel) : channelOfSel (selOfChannel ch) = some ch := by cases ch <;> rfl
theorem frameLenOfSel_selOfFrameLen (l : FrameLen) : frameLenOfSel (selOfFrameLen l) = some l := by cases l <;> rfl
theorem directionOfSel_selOfDirection (d : Direction) : directionOfSel (selOfDirection d) = some d := by cases d <;> rfl
theorem flagOfSel_selOfFlag (f : Flag) : flagOfSel (selOfFlag f) = some f := by cases f <;> rfl
theorem sourceOfSel_selOfSource (src : Source) : sourceOfSel (selOfSource src) = some src := by cases src <;> rfl
theorem regOfSel_selOfReg (r : Reg) : regOfSel (selOfReg r) = some r := by cases r <;> rfl

theorem selOfChannel_of_some {x : BitVec 8} {ch : Channel} (h : channelOfSel x = some ch) : selOfChannel ch = x := by
  unfold channelOfSel at h; split at h <;> simp at h <;> subst h <;> rfl
theorem selOfFrameLen_of_some {x : BitVec 8} {l : FrameLen} (h : frameLenOfSel x = some l) : selOfFrameLen l = x := by
  unfold frameLenOfSel at h; split at h <;> simp at h <;> subst h <;> rfl
theorem selOfDirection_of_some {x : BitVec 8} {d : Direction} (h : directionOfSel x = some d) : selOfDirection d = x := by
  unfold directionOfSel at h; split at h <;> simp at h <;> subst h <;> rfl
theorem selOfFlag_of_some {x : BitVec 8} {f : Flag} (h : flagOfSel x = some f) : selOfFlag f = x := by
  unfold flagOfSel at h; split at h <;> simp at h <;> subst h <;> rfl
theorem selOfSource_of_some {x : BitVec 8} {src : Source} (h : sourceOfSel x = some src) : selOfSource src = x := by
  unfold sourceOfSel at h; split at h <;> simp at h <;> subst h <;> rfl
theorem selOfReg_of_some {x : BitVec 8} {r : Reg} (h : regOfSel x = some r) : selOfReg r = x := by
  unfold regOfSel at h; split at h <;> simp at h <;> subst h <;> rfl

/-! ### CFG -/

@[simp] theorem bitOfRole_roleOfBit (b : Bool) : bitOfRole (roleOfBit b) = b := by cases b <;> rfl
@[simp] theorem roleOfBit_bitOfRole : ∀ x, roleOfBit (bitOfRole x) = x := by intro x; cases x <;> rfl
@[simp] theorem bitOfFrame_frameOfBit (b : Bool) : bitOfFrame (frameOfBit b) = b := by cases b <;> rfl
@[simp] theorem frameOfBit_bitOfFrame : ∀ x, frameOfBit (bitOfFrame x) = x := by intro x; cases x <;> rfl
@[simp] theorem bitOfCpol_cpolOfBit (b : Bool) : bitOfCpol (cpolOfBit b) = b := by cases b <;> rfl
@[simp] theorem cpolOfBit_bitOfCpol : ∀ x, cpolOfBit (bitOfCpol x) = x := by intro x; cases x <;> rfl
@[simp] theorem bitOfCpha_cphaOfBit (b : Bool) : bitOfCpha (cphaOfBit b) = b := by cases b <;> rfl
@[simp] theorem cphaOfBit_bitOfCpha : ∀ x, cphaOfBit (bitOfCpha x) = x := by intro x; cases x <;> rfl
@[simp] theorem bitOfNss_nssOfBit (b : Bool) : bitOfNss (nssOfBit b) = b := by cases b <;> rfl
@[simp] theorem nssOfBit_bitOfNss : ∀ x, nssOfBit (bitOfNss x) = x := by intro x; cases x <;> rfl
@[simp] theorem bitOfOrder_orderOfBit (b : Bool) : bitOfOrder (orderOfBit b) = b := by cases b <;> rfl
@[simp] theorem orderOfBit_bitOfOrder : ∀ x, orderOfBit (bitOfOrder x) = x := by intro x; cases x <;> rfl

theorem dirOfCode_codeOfDir (d : DirMode) : dirOfCode (codeOfDir d) = d := by cases d <;> rfl

/-- A CFG's eight fields, read back. -/
theorem fieldsOfCfg_cfgOfFields (c : Ctrl1Fields) : fieldsOfCfg (cfgOfFields c) = c := by
  obtain ⟨d, r, f, cp, ch, ns, b, o⟩ := c
  simp only [fieldsOfCfg, cfgOfFields, cfgOfFields.bit]
  congr 1
  · rw [show BitVec.extractLsb' 0 2 _ = codeOfDir d from ?_, dirOfCode_codeOfDir]
    ext i hi
    simp [show i < 16 by omega, show i < 10 by omega, show i < 7 by omega, show i < 6 by omega, show i < 5 by omega,
      show i < 4 by omega, show i < 3 by omega, hi]
  · simp
  · simp
  · simp
  · simp
  · simp
  · ext i hi
    simp
    grind
  · simp

/-- A CFG written from fields leaves bits 15:11 zero (R88). -/
theorem cfgOfFields_upper (c : Ctrl1Fields) : (cfgOfFields c).extractLsb' 11 5 = 0#5 := by
  ext i hi
  simp [cfgOfFields, cfgOfFields.bit]
  grind

/-- A CFG with bits 15:11 zero is written back as it was read. -/
theorem cfgOfFields_fieldsOfCfg {x : Word} (h : x.extractLsb' 11 5 = 0#5) : cfgOfFields (fieldsOfCfg x) = x := by
  have upper : ∀ i, 11 ≤ i → i < 16 → x.getLsbD i = false := fun i h1 h2 => by
    simpa [show i - 11 < 5 by omega, show 11 + (i - 11) = i by omega] using congrArg (fun y => y.getLsbD (i - 11)) h
  have code : ∀ y : BitVec 2, codeOfDir (dirOfCode y) = y := by decide
  ext i hi
  rw [← BitVec.getLsbD_eq_getElem, ← BitVec.getLsbD_eq_getElem]
  by_cases h11 : 11 ≤ i
  · rw [upper i h11 hi]
    have := congrArg (fun y => y.getLsbD (i - 11)) (cfgOfFields_upper (fieldsOfCfg x))
    simpa [show i - 11 < 5 by omega, show 11 + (i - 11) = i by omega] using this
  · simp only [cfgOfFields, cfgOfFields.bit, fieldsOfCfg, code, bitOfRole_roleOfBit, bitOfFrame_frameOfBit,
      bitOfCpol_cpolOfBit, bitOfCpha_cphaOfBit, bitOfNss_nssOfBit, bitOfOrder_orderOfBit]
    have : i < 11 := by omega
    interval_cases i <;> simp

/-! ### Branch offsets -/

theorem toInt_ofInt_of_fits {off : Int} (h : offsetFits off = true) : (BitVec.ofInt 16 off).toInt = off := by
  simp only [offsetFits, Bool.and_eq_true, decide_eq_true_eq] at h
  rw [BitVec.toInt_ofInt, Int.bmod_eq_of_le] <;> omega

/-! ### Boundaries -/

theorem isBoundary_zero (prog : List CmdWord) : isBoundary prog 0 = true := by cases prog <;> rfl

/-- No boundary lies beyond the stream. -/
theorem le_length_of_boundaryFrom {skip : Bool} {ws : List CmdWord} {k : Nat} (h : boundaryFrom skip ws k = true) :
    k ≤ ws.length := by
  induction ws generalizing skip k with
  | nil => cases k <;> simp_all [boundaryFrom]
  | cons w ws ih =>
    cases k with
    | zero => simp
    | succ k =>
      have : k ≤ ws.length := by cases skip <;> exact ih h
      simpa using this

/-- From a boundary on, the boundaries are those of the words after it. -/
theorem boundaryFrom_add {skip : Bool} {ws : List CmdWord} {k : Nat} (h : boundaryFrom skip ws k = true) (m : Nat) :
    boundaryFrom skip ws (k + m) = boundaryFrom false (ws.drop k) m := by
  induction ws generalizing skip k with
  | nil =>
    cases k with
    | zero => cases skip <;> simp_all [boundaryFrom]
    | succ k => simp [boundaryFrom] at h
  | cons w ws ih =>
    cases k with
    | zero => cases skip <;> simp_all [boundaryFrom]
    | succ k => rw [Nat.succ_add]; cases skip <;> exact ih h

end Sys2Proof
end

