-- ==== Sys2Proof/Laws/State.lean ====
section
/-! SUPPORT. What each named update of a state leaves in each field. -/

namespace Sys2Proof.Machine

variable (s : State)

/-! ### setBlk -/

@[simp] theorem State.blk_setBlk_self (n : Inst) (b : Block) : (s.setBlk n b).blk n = b := by cases n <;> rfl
theorem State.blk_setBlk_of_ne {n m : Inst} (h : m ≠ n) (b : Block) : (s.setBlk n b).blk m = s.blk m := by
  cases n <;> cases m <;> first | rfl | exact absurd rfl h
@[simp] theorem State.setBlk_blk (n : Inst) : s.setBlk n (s.blk n) = s := by cases n <;> rfl
@[simp] theorem State.setBlk_setBlk (n : Inst) (b c : Block) : (s.setBlk n b).setBlk n c = s.setBlk n c := by cases n <;> rfl
theorem State.setBlk_comm {n m : Inst} (h : m ≠ n) (b c : Block) : (s.setBlk n b).setBlk m c = (s.setBlk m c).setBlk n b := by
  cases n <;> cases m <;> first | rfl | exact absurd rfl h
@[simp] theorem State.blk_i0 : s.blk .i0 = s.inst0 := rfl
@[simp] theorem State.blk_i1 : s.blk .i1 = s.inst1 := rfl

@[simp] theorem State.inst0_setBlk_i0 (b : Block) : (s.setBlk .i0 b).inst0 = b := rfl
@[simp] theorem State.inst1_setBlk_i0 (b : Block) : (s.setBlk .i0 b).inst1 = s.inst1 := rfl
@[simp] theorem State.inst0_setBlk_i1 (b : Block) : (s.setBlk .i1 b).inst0 = s.inst0 := rfl
@[simp] theorem State.inst1_setBlk_i1 (b : Block) : (s.setBlk .i1 b).inst1 = b := rfl
@[simp] theorem State.res_setBlk (n : Inst) (b : Block) : (s.setBlk n b).res = s.res := by cases n <;> rfl
@[simp] theorem State.out_setBlk (n : Inst) (b : Block) : (s.setBlk n b).out = s.out := by cases n <;> rfl
@[simp] theorem State.pc_setBlk (n : Inst) (b : Block) : (s.setBlk n b).pc = s.pc := by cases n <;> rfl
@[simp] theorem State.prog_setBlk (n : Inst) (b : Block) : (s.setBlk n b).prog = s.prog := by cases n <;> rfl
@[simp] theorem State.halted_setBlk (n : Inst) (b : Block) : (s.setBlk n b).halted = s.halted := by cases n <;> rfl
@[simp] theorem State.refused_setBlk (n : Inst) (b : Block) : (s.setBlk n b).refused = s.refused := by cases n <;> rfl
@[simp] theorem State.sched_setBlk (n : Inst) (b : Block) : (s.setBlk n b).sched = s.sched := by cases n <;> rfl
@[simp] theorem State.port_setBlk (n : Inst) (b : Block) : (s.setBlk n b).port = s.port := by cases n <;> rfl
@[simp] theorem State.draws_setBlk (n : Inst) (b : Block) : (s.setBlk n b).draws = s.draws := by cases n <;> rfl

/-! ### advance -/

@[simp] theorem blk_advance (k : Nat) (n : Inst) : (advance k s).blk n = s.blk n := by cases n <;> rfl
@[simp] theorem inst0_advance (k : Nat) : (advance k s).inst0 = s.inst0 := rfl
@[simp] theorem inst1_advance (k : Nat) : (advance k s).inst1 = s.inst1 := rfl
@[simp] theorem res_advance (k : Nat) : (advance k s).res = s.res := rfl
@[simp] theorem out_advance (k : Nat) : (advance k s).out = s.out := rfl
@[simp] theorem pc_advance (k : Nat) : (advance k s).pc = s.pc + k := rfl
@[simp] theorem prog_advance (k : Nat) : (advance k s).prog = s.prog := rfl
@[simp] theorem halted_advance (k : Nat) : (advance k s).halted = s.halted := rfl
@[simp] theorem refused_advance (k : Nat) : (advance k s).refused = s.refused := rfl
@[simp] theorem sched_advance (k : Nat) : (advance k s).sched = s.sched := rfl
@[simp] theorem port_advance (k : Nat) : (advance k s).port = s.port := rfl
@[simp] theorem draws_advance (k : Nat) : (advance k s).draws = s.draws := rfl

/-! ### report -/

@[simp] theorem blk_report (v : Word) (n : Inst) : (report v s).blk n = s.blk n := by cases n <;> rfl
@[simp] theorem inst0_report (v : Word) : (report v s).inst0 = s.inst0 := rfl
@[simp] theorem inst1_report (v : Word) : (report v s).inst1 = s.inst1 := rfl
@[simp] theorem res_report (v : Word) : (report v s).res = v := rfl
@[simp] theorem out_report (v : Word) : (report v s).out = s.out ++ [v] := rfl
@[simp] theorem pc_report (v : Word) : (report v s).pc = s.pc := rfl
@[simp] theorem prog_report (v : Word) : (report v s).prog = s.prog := rfl
@[simp] theorem halted_report (v : Word) : (report v s).halted = s.halted := rfl
@[simp] theorem refused_report (v : Word) : (report v s).refused = s.refused := rfl
@[simp] theorem sched_report (v : Word) : (report v s).sched = s.sched := rfl
@[simp] theorem port_report (v : Word) : (report v s).port = s.port := rfl
@[simp] theorem draws_report (v : Word) : (report v s).draws = s.draws := rfl

/-! ### refuse -/

@[simp] theorem blk_refuse (why : Reason) (n : Inst) : (refuse why s).blk n = s.blk n := by cases n <;> rfl
@[simp] theorem inst0_refuse (why : Reason) : (refuse why s).inst0 = s.inst0 := rfl
@[simp] theorem inst1_refuse (why : Reason) : (refuse why s).inst1 = s.inst1 := rfl
@[simp] theorem res_refuse (why : Reason) : (refuse why s).res = s.res := rfl
@[simp] theorem out_refuse (why : Reason) : (refuse why s).out = s.out := rfl
@[simp] theorem pc_refuse (why : Reason) : (refuse why s).pc = s.pc := rfl
@[simp] theorem prog_refuse (why : Reason) : (refuse why s).prog = s.prog := rfl
@[simp] theorem halted_refuse (why : Reason) : (refuse why s).halted = s.halted := rfl
@[simp] theorem refused_refuse (why : Reason) : (refuse why s).refused = some why := rfl
@[simp] theorem sched_refuse (why : Reason) : (refuse why s).sched = s.sched := rfl
@[simp] theorem port_refuse (why : Reason) : (refuse why s).port = s.port := rfl
@[simp] theorem draws_refuse (why : Reason) : (refuse why s).draws = s.draws := rfl

/-! ### halt -/

@[simp] theorem blk_halt (n : Inst) : (halt s).blk n = s.blk n := by cases n <;> rfl
@[simp] theorem inst0_halt : (halt s).inst0 = s.inst0 := rfl
@[simp] theorem inst1_halt : (halt s).inst1 = s.inst1 := rfl
@[simp] theorem res_halt : (halt s).res = s.res := rfl
@[simp] theorem out_halt : (halt s).out = s.out := rfl
@[simp] theorem pc_halt : (halt s).pc = s.pc := rfl
@[simp] theorem prog_halt : (halt s).prog = s.prog := rfl
@[simp] theorem halted_halt : (halt s).halted = true := rfl
@[simp] theorem refused_halt : (halt s).refused = s.refused := rfl
@[simp] theorem sched_halt : (halt s).sched = s.sched := rfl
@[simp] theorem port_halt : (halt s).port = s.port := rfl
@[simp] theorem draws_halt : (halt s).draws = s.draws := rfl

/-! ### Updates written with braces -/

@[simp] theorem State.blk_draws (k : Nat) (n : Inst) : { s with draws := k }.blk n = s.blk n := by cases n <;> rfl
@[simp] theorem State.blk_sched (c : Schedule) (n : Inst) : { s with sched := c }.blk n = s.blk n := by
  cases n <;> rfl
@[simp] theorem State.blk_port (l : List BusRequest) (n : Inst) : { s with port := l }.blk n = s.blk n := by cases n <;> rfl
@[simp] theorem State.blk_pc (k : Nat) (n : Inst) : { s with pc := k }.blk n = s.blk n := by cases n <;> rfl
theorem State.setBlk_sched (c : Schedule) (n : Inst) (b : Block) :
    { s with sched := c }.setBlk n b = { s.setBlk n b with sched := c } := by cases n <;> rfl

end Sys2Proof.Machine
end

