-- ==== Sys2Proof/Laws/Ops.lean ====
section
/-! SUPPORT. For each shared operation, what it can do and what it leaves alone. -/

namespace Sys2Proof.Machine

/-! ### Engine turns -/

@[simp] theorem applyTurn_nil (n : Inst) (b : Block) : applyTurn [] n b = b := rfl
theorem applyTurn_cons_self (n : Inst) (e : EngineEvent) (es : Turn) (b : Block) :
    applyTurn ((n, e) :: es) n b = applyTurn es n (engineEvent Config.modfForce Config.rx8Upper e b) := by simp [applyTurn]
theorem applyTurn_cons_of_ne {n m : Inst} (h : n ≠ m) (e : EngineEvent) (es : Turn) (b : Block) :
    applyTurn ((n, e) :: es) m b = applyTurn es m b := by simp [applyTurn, h]

/-- What every engine event keeps, a turn keeps. -/
theorem applyTurn_induction {P : Block → Prop} (hP : ∀ f u e b, P b → P (engineEvent f u e b)) (turn : Turn) (n : Inst)
    {b : Block} (h : P b) : P (applyTurn turn n b) := by
  induction turn generalizing b with
  | nil => exact h
  | cons e es ih =>
    obtain ⟨m, e⟩ := e
    by_cases hm : m = n
    · subst hm; rw [applyTurn_cons_self]; exact ih (hP _ _ _ _ h)
    · rw [applyTurn_cons_of_ne hm]; exact ih h

section
variable (s : State)
/-- An engine turn changes the two blocks and takes one turn off the schedule, nothing else. -/
theorem blk_engineTurn (n : Inst) : (engineTurn s).blk n = applyTurn s.sched.head n (s.blk n) := by cases n <;> rfl
@[simp] theorem sched_engineTurn : (engineTurn s).sched = s.sched.rest := rfl
@[simp] theorem res_engineTurn : (engineTurn s).res = s.res := rfl
@[simp] theorem out_engineTurn : (engineTurn s).out = s.out := rfl
@[simp] theorem pc_engineTurn : (engineTurn s).pc = s.pc := rfl
@[simp] theorem prog_engineTurn : (engineTurn s).prog = s.prog := rfl
@[simp] theorem halted_engineTurn : (engineTurn s).halted = s.halted := rfl
@[simp] theorem refused_engineTurn : (engineTurn s).refused = s.refused := rfl
@[simp] theorem port_engineTurn : (engineTurn s).port = s.port := rfl
@[simp] theorem draws_engineTurn : (engineTurn s).draws = s.draws := rfl
end

@[simp] theorem Schedule.drop_zero (c : Schedule) : c.drop 0 = c := rfl
@[simp] theorem Schedule.drop_succ (k : Nat) (c : Schedule) : c.drop (k + 1) = c.rest.drop k := rfl
theorem Schedule.drop_drop (j k : Nat) (c : Schedule) : (c.drop j).drop k = c.drop (j + k) := by
  induction j generalizing c with
  | zero => simp
  | succ j ih => rw [Nat.succ_add]; exact ih _

/-- Quiet for `k` turns: none of them has an event. -/
theorem Schedule.quiet_iff {k : Nat} {c : Schedule} : c.quiet k = true ↔ ∀ j < k, (c.drop j).head = [] := by
  induction k generalizing c with
  | zero => simp [Schedule.quiet]
  | succ k ih =>
    rw [Schedule.quiet, Bool.and_eq_true, List.isEmpty_iff, ih]
    constructor
    · rintro ⟨h0, h⟩ (_ | j) hj
      · exact h0
      · exact h j (by omega)
    · exact fun h => ⟨h 0 (by omega), fun j hj => h (j + 1) (by omega)⟩

/-- A quiet turn only takes its empty entry off the schedule. -/
theorem engineTurn_of_quiet {s : State} {k : Nat} (h : s.quiet (k + 1) = true) :
    engineTurn s = { s with sched := s.sched.rest } := by
  have h0 : s.sched.head = [] := Schedule.quiet_iff.1 h 0 (by omega)
  simp [engineTurn, h0]

/-- Quiet for `k + 1` turns is quiet for `k` after one of them. -/
theorem quiet_of_rest {s t : State} {k : Nat} (h : s.quiet (k + 1) = true) (ht : t.sched = s.sched.rest) :
    t.quiet k = true := by
  rw [State.quiet, Schedule.quiet, Bool.and_eq_true] at h
  rw [State.quiet, ht]
  exact h.2

/-! ### Bus accesses -/

section
variable (n : Inst) (r : Reg) (v : Word) (s : State)

theorem busRead_value : (busRead n r s).1 = readValue r ((engineTurn s).blk n) := rfl
theorem busRead_state : (busRead n r s).2
    = (engineTurn s).setBlk n (blockRead Config.seqIntervening r ((engineTurn s).blk n)) := rfl
theorem busWrite_state : busWrite n r v s
    = (engineTurn s).setBlk n (blockWrite Config.seqIntervening r v ((engineTurn s).blk n)) := rfl

@[simp] theorem res_busRead : (busRead n r s).2.res = s.res := by simp [busRead_state]
@[simp] theorem out_busRead : (busRead n r s).2.out = s.out := by simp [busRead_state]
@[simp] theorem pc_busRead : (busRead n r s).2.pc = s.pc := by simp [busRead_state]
@[simp] theorem prog_busRead : (busRead n r s).2.prog = s.prog := by simp [busRead_state]
@[simp] theorem halted_busRead : (busRead n r s).2.halted = s.halted := by simp [busRead_state]
@[simp] theorem refused_busRead : (busRead n r s).2.refused = s.refused := by simp [busRead_state]
@[simp] theorem port_busRead : (busRead n r s).2.port = s.port := by simp [busRead_state]
@[simp] theorem draws_busRead : (busRead n r s).2.draws = s.draws := by simp [busRead_state]
@[simp] theorem sched_busRead : (busRead n r s).2.sched = s.sched.rest := by simp [busRead_state]

@[simp] theorem res_busWrite : (busWrite n r v s).res = s.res := by simp [busWrite_state]
@[simp] theorem out_busWrite : (busWrite n r v s).out = s.out := by simp [busWrite_state]
@[simp] theorem pc_busWrite : (busWrite n r v s).pc = s.pc := by simp [busWrite_state]
@[simp] theorem prog_busWrite : (busWrite n r v s).prog = s.prog := by simp [busWrite_state]
@[simp] theorem halted_busWrite : (busWrite n r v s).halted = s.halted := by simp [busWrite_state]
@[simp] theorem refused_busWrite : (busWrite n r v s).refused = s.refused := by simp [busWrite_state]
@[simp] theorem port_busWrite : (busWrite n r v s).port = s.port := by simp [busWrite_state]
@[simp] theorem draws_busWrite : (busWrite n r v s).draws = s.draws := by simp [busWrite_state]
@[simp] theorem sched_busWrite : (busWrite n r v s).sched = s.sched.rest := by simp [busWrite_state]

/-- A read-modify-write is its two accesses, an engine turn before each. -/
theorem readModifyWrite_state (f : Word → Word) : readModifyWrite n r f s
    = busWrite n r (f (readValue r ((engineTurn s).blk n))) (busRead n r s).2 := rfl

theorem readToResult_state : readToResult n r s
    = report (readValue r ((engineTurn s).blk n)) (busRead n r s).2 := rfl
end

/-! ### Bus accesses while the engines are quiet -/

section
variable (n : Inst) (r : Reg) (v : Word) {s : State} {k : Nat}

theorem busRead_of_quiet (h : s.quiet (k + 1) = true) : busRead n r s
    = (readValue r (s.blk n),
       { s.setBlk n (blockRead Config.seqIntervening r (s.blk n)) with sched := s.sched.rest }) := by
  simp [busRead, engineTurn_of_quiet h, State.setBlk_sched]

theorem busWrite_of_quiet (h : s.quiet (k + 1) = true) : busWrite n r v s
    = { s.setBlk n (blockWrite Config.seqIntervening r v (s.blk n)) with sched := s.sched.rest } := by
  simp [busWrite, engineTurn_of_quiet h, State.setBlk_sched]

theorem readModifyWrite_of_quiet (f : Word → Word) (h : s.quiet (k + 2) = true) : readModifyWrite n r f s
    = { s.setBlk n (blockWrite Config.seqIntervening r (f (readValue r (s.blk n)))
          (blockRead Config.seqIntervening r (s.blk n))) with sched := s.sched.drop 2 } := by
  have h1 : State.quiet (k + 1) { s.setBlk n (blockRead Config.seqIntervening r (s.blk n)) with sched := s.sched.rest } = true :=
    quiet_of_rest h rfl
  rw [readModifyWrite, busRead_of_quiet n r h]
  simp only [busWrite_of_quiet n r _ h1, State.blk_sched, State.blk_setBlk_self, State.setBlk_sched, State.setBlk_setBlk]
  rfl
end

/-! ### The clear state machine, field by field -/

section
variable (p : SeqIntervening) (k : AccessKind) (b : Block)

/-- An access changes only OVR, UDR, MODF and the two latches through its clear step. -/
theorem clearStep_frame : clearStep p k b
    = { b with
        ovr := (clearStep p k b).ovr, udr := (clearStep p k b).udr, modf := (clearStep p k b).modf
        ovrArm := (clearStep p k b).ovrArm, modfArm := (clearStep p k b).modfArm } := by
  cases k <;> rfl

theorem clearStep_stsRead : clearStep p .stsRead b
    = { b with ovr := b.ovr && !b.ovrArm, ovrArm := false, udr := false
               modfArm := b.modf || (b.modfArm && keepsArmed p) } := rfl
theorem clearStep_dataRead : clearStep p .dataRead b
    = { b with ovrArm := b.ovr || (b.ovrArm && keepsArmed p), modfArm := b.modfArm && keepsArmed p } := rfl
theorem clearStep_ctrl1Read : clearStep p .ctrl1Read b = { b with ovrArm := b.ovrArm && keepsArmed p } := rfl
theorem clearStep_ctrl1Write : clearStep p .ctrl1Write b
    = { b with ovrArm := b.ovrArm && keepsArmed p, modf := b.modf && !b.modfArm, modfArm := false } := rfl
theorem clearStep_other : clearStep p .other b
    = { b with ovrArm := b.ovrArm && keepsArmed p, modfArm := b.modfArm && keepsArmed p } := rfl

theorem clearStep_inv (h : b.Inv) : (clearStep p k b).Inv := by
  obtain ⟨h1, h2, h3⟩ := h
  cases k <;> cases p <;> refine ⟨?_, ?_, h3⟩ <;>
    simp [clearStep, clearOverrun, clearUnderrun, clearModeFault, keepsArmed] <;> tauto
end

/-! ### The block invariant -/

theorem implemented_only (v : Word) : v &&& CTRL2_IMPL &&& ~~~CTRL2_IMPL = 0 := by
  rw [BitVec.and_assoc]; simp

theorem blockRead_inv (p : SeqIntervening) (r : Reg) {b : Block} (h : b.Inv) : (blockRead p r b).Inv := by
  refine clearStep_inv _ _ _ ?_
  cases r <;> exact h

theorem blockWrite_inv (p : SeqIntervening) (r : Reg) (v : Word) {b : Block} (h : b.Inv) : (blockWrite p r v b).Inv := by
  refine clearStep_inv _ _ _ ?_
  cases r <;> first | exact h | exact ⟨h.1, h.2.1, implemented_only v⟩

theorem engineEvent_inv (f : ModfForce) (u : Rx8Upper) (e : EngineEvent) {b : Block} (h : b.Inv) :
    (engineEvent f u e b).Inv := by
  obtain ⟨h1, h2, h3⟩ := h
  cases e <;> refine ⟨?_, ?_, h3⟩ <;> simp_all [engineEvent]

theorem Block.reset_inv (draw : Word) : (Block.reset draw).Inv := by
  refine ⟨?_, ?_, ?_⟩ <;> simp [Block.reset]

theorem State.inv_iff {s : State} : s.Inv ↔ ∀ n, (s.blk n).Inv :=
  ⟨fun h n => by cases n <;> [exact h.1; exact h.2], fun h => ⟨h .i0, h .i1⟩⟩

theorem setBlk_inv {s : State} (h : s.Inv) (n : Inst) {b : Block} (hb : b.Inv) : (s.setBlk n b).Inv := by
  cases n <;> [exact ⟨hb, h.2⟩; exact ⟨h.1, hb⟩]

theorem engineTurn_inv {s : State} (h : s.Inv) : (engineTurn s).Inv :=
  State.inv_iff.2 fun n => by
    rw [blk_engineTurn]
    exact applyTurn_induction (fun f u e _ => engineEvent_inv f u e) _ _ (State.inv_iff.1 h n)

theorem busRead_inv {s : State} (h : s.Inv) (n : Inst) (r : Reg) : (busRead n r s).2.Inv :=
  setBlk_inv (engineTurn_inv h) _ (blockRead_inv _ _ (State.inv_iff.1 (engineTurn_inv h) _))

theorem busWrite_inv {s : State} (h : s.Inv) (n : Inst) (r : Reg) (v : Word) : (busWrite n r v s).Inv :=
  setBlk_inv (engineTurn_inv h) _ (blockWrite_inv _ _ _ (State.inv_iff.1 (engineTurn_inv h) _))

/-! ### Isolation of the instances -/

theorem blk_busRead_of_ne {n m : Inst} (h : m ≠ n) (r : Reg) (s : State) :
    ((busRead n r s).2).blk m = (engineTurn s).blk m := State.blk_setBlk_of_ne _ h _

theorem blk_busWrite_of_ne {n m : Inst} (h : m ≠ n) (r : Reg) (v : Word) (s : State) :
    (busWrite n r v s).blk m = (engineTurn s).blk m := State.blk_setBlk_of_ne _ h _

@[simp] theorem blk_busRead_self (n : Inst) (r : Reg) (s : State) :
    ((busRead n r s).2).blk n = blockRead Config.seqIntervening r ((engineTurn s).blk n) := State.blk_setBlk_self _ _ _

@[simp] theorem blk_busWrite_self (n : Inst) (r : Reg) (v : Word) (s : State) :
    (busWrite n r v s).blk n = blockWrite Config.seqIntervening r v ((engineTurn s).blk n) := State.blk_setBlk_self _ _ _

/-! ### Branches, the reset pulse, the port -/

/-- A branch goes to its target or is refused; the engines' turn apart, nothing else changes. -/
theorem branchIf_cases (taken : Bool) (off : Int) (s : State) :
    (isTarget s.prog (if taken then s.pc + off else s.pc + 1) = true
      ∧ branchIf taken off s = { engineTurn s with pc := (if taken then (s.pc : Int) + off else s.pc + 1).toNat })
    ∨ (isTarget s.prog (if taken then s.pc + off else s.pc + 1) = false
      ∧ branchIf taken off s = refuse .badTarget (engineTurn s)) := by
  cases h : isTarget s.prog (if taken then s.pc + off else s.pc + 1) with
  | true => exact .inl ⟨rfl, if_pos h⟩
  | false => exact .inr ⟨rfl, if_neg (by simp [h])⟩

theorem blk_resetPulse_self (n : Inst) (s : State) :
    (resetPulse n s).blk n = Block.reset (Config.rxbufReset s.draws) := by
  cases n <;> simp [resetPulse, State.blk]

theorem blk_resetPulse_of_ne {n m : Inst} (h : m ≠ n) (s : State) : (resetPulse n s).blk m = (engineTurn s).blk m := by
  cases n <;> cases m <;> first | exact absurd rfl h | simp [resetPulse, State.blk]

/-- Every bus request is a read, a write or one of three refusals. -/
theorem serveRequest_cases (q : BusRequest) (s : State) :
    (∃ n r, serveRequest q s = readToResult n r s) ∨ (∃ n r v, serveRequest q s = busWrite n r v s)
    ∨ ∃ why, (why = .secondMaster ∨ why = .badWidth ∨ why = .unmapped) ∧ serveRequest q s = refuse why (engineTurn s) := by
  unfold serveRequest
  split
  · exact .inr (.inr ⟨_, .inl rfl, rfl⟩)
  · split
    · split
      · exact .inr (.inr ⟨_, .inr (.inr rfl), rfl⟩)
      · split
        · exact .inl ⟨_, _, rfl⟩
        · exact .inr (.inl ⟨_, _, _, rfl⟩)
    · exact .inr (.inr ⟨_, .inr (.inl rfl), rfl⟩)

end Sys2Proof.Machine
end

