-- ==== Sys2Proof/Laws/PerInstr.lean ====
section
/-! SUPPORT. For each command: its encoding has the length that its first word's OP gives (30_encoding.md R87). -/

namespace Sys2Proof.Laws.EncodedLength

/-- The command's words are not empty, and the first gives their number. -/
def Statement (i : Instr) : Prop :=
  ∃ w ws, encode i = w :: ws ∧ (encode i).length = commandLength w

/-- One word with an opcode that is not CONFIGURE's. -/
theorem of_word {i : Instr} {op : BitVec 6} {n : Inst} {sel : BitVec 8} {imm : BitVec 16}
    (h : encode i = [word op n sel imm]) (hop : (op == 0x02#6) = false) : Statement i :=
  ⟨_, _, h, by rw [h, commandLength, isTwoWord_word, hop]; rfl⟩

theorem reset (n : Inst) : Statement (.reset n) := of_word rfl rfl
theorem configure (n : Inst) (c : Configuration) : Statement (.configure n c) :=
  ⟨_, _, rfl, by rw [commandLength, isTwoWord_word]; rfl⟩
theorem enable (n : Inst) : Statement (.enable n) := of_word rfl rfl
theorem disable (n : Inst) : Statement (.disable n) := of_word rfl rfl
theorem dmaen (n : Inst) (ch : Channel) : Statement (.dmaen n ch) := of_word rfl rfl
theorem dmadis (n : Inst) (ch : Channel) : Statement (.dmadis n ch) := of_word rfl rfl
theorem txdata (n : Inst) (v : Word) : Statement (.txdata n v) := of_word rfl rfl
theorem rxdata (n : Inst) : Statement (.rxdata n) := of_word rfl rfl
theorem ssiset (n : Inst) : Statement (.ssiset n) := of_word rfl rfl
theorem ssiclr (n : Inst) : Statement (.ssiclr n) := of_word rfl rfl
theorem ssoeen (n : Inst) : Statement (.ssoeen n) := of_word rfl rfl
theorem ssoedis (n : Inst) : Statement (.ssoedis n) := of_word rfl rfl
theorem setframe (n : Inst) (len : FrameLen) : Statement (.setframe n len) := of_word rfl rfl
theorem setdir (n : Inst) (d : Direction) : Statement (.setdir n d) := of_word rfl rfl
theorem crcen (n : Inst) : Statement (.crcen n) := of_word rfl rfl
theorem crcdis (n : Inst) : Statement (.crcdis n) := of_word rfl rfl
theorem crcnext (n : Inst) : Statement (.crcnext n) := of_word rfl rfl
theorem rdtxcrc (n : Inst) : Statement (.rdtxcrc n) := of_word rfl rfl
theorem rdrxcrc (n : Inst) : Statement (.rdrxcrc n) := of_word rfl rfl
theorem rdpoly (n : Inst) : Statement (.rdpoly n) := of_word rfl rfl
theorem rdflag (n : Inst) (f : Flag) : Statement (.rdflag n f) := of_word rfl rfl
theorem inten (n : Inst) (src : Source) : Statement (.inten n src) := of_word rfl rfl
theorem intdis (n : Inst) (src : Source) : Statement (.intdis n src) := of_word rfl rfl
theorem rdint (n : Inst) (src : Source) : Statement (.rdint n src) := of_word rfl rfl
theorem clrflag (n : Inst) (f : Flag) : Statement (.clrflag n f) := of_word rfl rfl
theorem clrint (n : Inst) (src : Source) : Statement (.clrint n src) := of_word rfl rfl
theorem busrd (n : Inst) (r : Reg) : Statement (.busrd n r) := of_word rfl rfl
theorem buswr (n : Inst) (r : Reg) (v : Word) : Statement (.buswr n r v) := of_word rfl rfl
theorem bz (off : Int) : Statement (.bz off) := of_word rfl rfl
theorem bnz (off : Int) : Statement (.bnz off) := of_word rfl rfl
theorem halt : Statement (.halt) := of_word rfl rfl

end Sys2Proof.Laws.EncodedLength
end

