-- ==== Sys2Proof/Tests/Slice0.lean ====
section
/-! SUPPORT. Tests of one decoding or one step each, their words and results taken from 95_test_vectors.md unless a comment says
otherwise; and, for each statement with hypotheses, a concrete case that meets them (`witness_…`). -/

namespace Sys2Proof.Tests

open Sys2Proof Sys2Proof.Machine Sys2Proof.Claims

/-! ### Well-formedness -/

/-- Offsets that sixteen signed bits cannot hold (30_encoding.md R90). -/
theorem test_ill_formed_refused :
    Instr.wellFormed (.bz 32768) = false ∧ Instr.wellFormed (.bz (-32769)) = false
      ∧ Instr.wellFormed (.bnz 32768) = false ∧ Instr.wellFormed (.bnz (-32769)) = false := by decide

/-! ### Decoding, one word per command -/

theorem test_decode_reset : decode [0x00000041] = .ok (.reset .i1, []) := by decide
/-- S3's first row: half-duplex-tx, master, 16-bit, idle-high, second edge, software NSS, divisor 256, LSB-first. -/
theorem test_decode_configure : decode [0x07FE0002, 0x00001021] = .ok (.configure .i0
    { dir := .halfDuplexTx, role := .master, frame := .bits16, cpol := .idleHigh, cpha := .secondEdge, nss := .software,
      baud := 7, order := .lsbFirst, poly := 0x1021 }, []) := by decide
/-- S3's third row: receive-only, slave, 8-bit, divisor 16. -/
theorem test_decode_configure_receive_only : decode [0x01830002, 0x00008005] = .ok (.configure .i0
    { dir := .receiveOnly, role := .slave, frame := .bits8, cpol := .idleLow, cpha := .firstEdge, nss := .hardware,
      baud := 3, order := .msbFirst, poly := 0x8005 }, []) := by decide
theorem test_decode_enable : decode [0x00000003] = .ok (.enable .i0, []) := by decide
theorem test_decode_disable : decode [0x00000004] = .ok (.disable .i0, []) := by decide
theorem test_decode_dmaen : decode [0x00000105] = .ok (.dmaen .i0 .tx, []) := by decide
theorem test_decode_dmadis : decode [0x00000006] = .ok (.dmadis .i0 .rx, []) := by decide
theorem test_decode_txdata : decode [0xBEEF0047] = .ok (.txdata .i1 0xBEEF, []) := by decide
theorem test_decode_rxdata : decode [0x00000008] = .ok (.rxdata .i0, []) := by decide
theorem test_decode_ssiset : decode [0x00000009] = .ok (.ssiset .i0, []) := by decide
theorem test_decode_ssiclr : decode [0x0000000A] = .ok (.ssiclr .i0, []) := by decide
theorem test_decode_ssoeen : decode [0x0000000B] = .ok (.ssoeen .i0, []) := by decide
theorem test_decode_ssoedis : decode [0x0000000C] = .ok (.ssoedis .i0, []) := by decide
theorem test_decode_setframe : decode [0x0000010D] = .ok (.setframe .i0 .bits16, []) := by decide
theorem test_decode_setdir : decode [0x0000004E] = .ok (.setdir .i1 .rx, []) := by decide
theorem test_decode_crcen : decode [0x0000000F] = .ok (.crcen .i0, []) := by decide
theorem test_decode_crcdis : decode [0x00000010] = .ok (.crcdis .i0, []) := by decide
theorem test_decode_crcnext : decode [0x00000011] = .ok (.crcnext .i0, []) := by decide
theorem test_decode_rdtxcrc : decode [0x00000012] = .ok (.rdtxcrc .i0, []) := by decide
theorem test_decode_rdrxcrc : decode [0x00000013] = .ok (.rdrxcrc .i0, []) := by decide
theorem test_decode_rdpoly : decode [0x00000054] = .ok (.rdpoly .i1, []) := by decide
theorem test_decode_rdflag : decode [0x00000615] = .ok (.rdflag .i0 .ovr, []) := by decide
theorem test_decode_inten : decode [0x00000116] = .ok (.inten .i0 .rxne, []) := by decide
theorem test_decode_intdis : decode [0x00000217] = .ok (.intdis .i0 .txe, []) := by decide
theorem test_decode_rdint : decode [0x00000118] = .ok (.rdint .i0 .rxne, []) := by decide
theorem test_decode_clrflag : decode [0x00000619] = .ok (.clrflag .i0 .ovr, []) := by decide
theorem test_decode_clrint : decode [0x0000021A] = .ok (.clrint .i0 .txe, []) := by decide
theorem test_decode_busrd : decode [0x0000051B] = .ok (.busrd .i0 .rxcrc, []) := by decide
theorem test_decode_buswr : decode [0xFFFF005C] = .ok (.buswr .i1 .ctrl1 0xFFFF, []) := by decide
theorem test_decode_bz : decode [0xFFFF001D] = .ok (.bz (-1), []) := by decide
theorem test_decode_bnz : decode [0xFFFE001E] = .ok (.bnz (-2), []) := by decide
theorem test_decode_halt : decode [0x0000001F] = .ok (.halt, []) := by decide

theorem test_reserved_opcodes :
    [0x00000000, 0x00000020, 0x0000003F].map (fun w : CmdWord => decode [w])
      = List.replicate 3 (.error .illegal) := by decide
theorem test_reserved_fields :
    [0x00000083, 0x00000103, 0x00010003, 0x0000005D, 0x0001001F].map (fun w : CmdWord => decode [w])
      = List.replicate 5 (.error .illegal) := by decide
theorem test_illegal_selectors :
    [0x00000205, 0x00000316, 0x00000815, 0x0000071B, 0x0000071C].map (fun w : CmdWord => decode [w])
      = List.replicate 5 (.error .illegal) := by decide
theorem test_illegal_configures :
    decode [0x08000002, 0x00000007] = .error .illegal ∧ decode [0x00000002, 0x00010007] = .error .illegal := by decide
theorem test_truncated_configure : decode [0x00000002] = .error .truncated := by decide

/-! ### Packing -/

/-- S3: 0x07FE names 0xCABF, 0x0085 names 0x800C (half-duplex-rx, master, divisor 4). -/
theorem test_encoded : encoded (fieldsOfCfg 0x07FE) = 0xCABF ∧ encoded (fieldsOfCfg 0x0085) = 0x800C := by decide
/-- The decode law's table. -/
theorem test_decoded : decoded 0x3040 = some defaultConfig.toCtrl1Fields ∧ decoded 0x4000 = none ∧ decoded 0x8400 = none
    ∧ decoded 0xC400 = none := by decide

/-! ### One command on a small state -/

/-- Engines that perform the given turns and are then silent for ever. -/
def upcoming (turns : List Turn) : Schedule := { ahead := turns, later := .repeating [], drawn := 0 }

/-- Both instances reset, with a named value in each RXBUF, and silent engines. -/
def start : State := { State.reset with inst0 := Block.reset 0x00A5, inst1 := Block.reset 0x0022, sched := upcoming [] }

/-- Instance 0's block at reset. -/
def rst : Block := Block.reset 0x00A5

/-- The state in which instance 0's block is `b`. -/
def withBlock (b : Block) : State := { start with inst0 := b }

/-- The state a command leaves. -/
def ran (i : Instr) (s : State) : Option State :=
  match exec i s with
  | .next t => some t
  | .fault _ => none
  | .refused _ => none

/-- Instance 0's block after a command on `b`. -/
def blockAfter (i : Instr) (b : Block) : Option Block := (ran i (withBlock b)).map State.inst0

/-- A block with the given STS value. -/
def flags (sts : Word) (b : Block) : Block :=
  { b with rxne := sts.getLsbD 0, txe := sts.getLsbD 1, chside := sts.getLsbD 2, udr := sts.getLsbD 3,
           crcerr := sts.getLsbD 4, modf := sts.getLsbD 5, ovr := sts.getLsbD 6, bsy := sts.getLsbD 7 }

/-- F13: RESET takes every flag and latch to its reset value; pc moves on (R186). -/
theorem test_reset : (ran (.reset .i0) (withBlock (flags 0x0060 { rst with ctrl1 := 0xFFFF, ovrArm := true, modfArm := true }))).map
    (fun t => (t.inst0.ctrl1, stsval t.inst0, t.inst0.ovrArm, t.inst0.modfArm, t.pc)) = some (0x0000, 0x0002, false, false, 1) := by
  decide
/-- S3's first row; two words (R87). -/
theorem test_configure : (ran (.configure .i0 { toCtrl1Fields := fieldsOfCfg 0x07FE, poly := 0x1021 })
    (withBlock { rst with ctrl1 := 0xFFFF })).map (fun t => (t.inst0.ctrl1, t.inst0.crcpoly, t.inst0.cfgDone, t.pc))
      = some (0xFAFF, 0x1021, true, 2) := by decide
/-- MODF and its latch set: DefaultConfig's CTRL1 write clears them. -/
theorem test_configure_clears_modf : (blockAfter (.configure .i0 defaultConfig)
    (flags 0x0022 { rst with ctrl1 := 0x0044, modfArm := true })).map (fun b => (b.ctrl1, b.modf, b.modfArm))
      = some (0x0040, false, false) := by decide
theorem test_enable : (blockAfter (.enable .i0) rst).map Block.ctrl1 = some 0x0040 := by decide
theorem test_disable : (blockAfter (.disable .i0) { rst with ctrl1 := 0xFAFF }).map Block.ctrl1 = some 0xFABF := by decide
theorem test_dmaen : (blockAfter (.dmaen .i0 .rx) { rst with ctrl2 := 0x0002 }).map Block.ctrl2 = some 0x0003 := by decide
theorem test_dmadis : (blockAfter (.dmadis .i0 .tx) { rst with ctrl2 := 0x0003 }).map Block.ctrl2 = some 0x0001 := by decide
theorem test_txdata : (blockAfter (.txdata .i0 0x0055) rst).map (fun b => (b.txbuf, stsval b)) = some (0x0055, 0x0000) := by
  decide
theorem test_rxdata : (ran (.rxdata .i0) (withBlock (flags 0x0003 rst))).map (fun t => (t.res, t.out, t.inst0.rxne))
    = some (0x00A5, [0x00A5], false) := by decide
/-- An overrun is armed, not cleared. -/
theorem test_rxdata_arms : (blockAfter (.rxdata .i0) (flags 0x0043 rst)).map (fun b => (b.rxne, b.ovr, b.ovrArm))
    = some (false, true, true) := by decide
theorem test_ssiset : (blockAfter (.ssiset .i0) { rst with ctrl1 := 0x0204 }).map Block.ctrl1 = some 0x0304 := by decide
theorem test_ssiclr : (blockAfter (.ssiclr .i0) { rst with ctrl1 := 0x0304 }).map Block.ctrl1 = some 0x0204 := by decide
theorem test_ssoeen : (blockAfter (.ssoeen .i0) rst).map Block.ctrl2 = some 0x0004 := by decide
theorem test_ssoedis : (blockAfter (.ssoedis .i0) { rst with ctrl2 := 0x00E7 }).map Block.ctrl2 = some 0x00E3 := by decide
theorem test_setframe_16 : (blockAfter (.setframe .i0 .bits16) { rst with ctrl1 := 0xF2FF }).map Block.ctrl1
    = some 0xFAFF := by decide
theorem test_setframe_8 : (blockAfter (.setframe .i0 .bits8) { rst with ctrl1 := 0xFAFF }).map Block.ctrl1
    = some 0xF2FF := by decide
theorem test_setdir_tx : (blockAfter (.setdir .i0 .tx) rst).map Block.ctrl1 = some 0x4000 := by decide
theorem test_setdir_rx : (blockAfter (.setdir .i0 .rx) { rst with ctrl1 := 0xFAFF }).map Block.ctrl1 = some 0xBAFF := by decide
theorem test_crcen : (blockAfter (.crcen .i0) { rst with ctrl1 := 0x0040 }).map Block.ctrl1 = some 0x2040 := by decide
theorem test_crcdis : (blockAfter (.crcdis .i0) { rst with ctrl1 := 0x3040 }).map Block.ctrl1 = some 0x1040 := by decide
theorem test_crcnext : (blockAfter (.crcnext .i0) { rst with ctrl1 := 0x2040 }).map Block.ctrl1 = some 0x3040 := by decide
theorem test_rdtxcrc : (ran (.rdtxcrc .i0) (withBlock { rst with txcrc := 0x1D0F })).map State.res = some 0x1D0F := by decide
theorem test_rdrxcrc : (ran (.rdrxcrc .i0) start).map State.res = some 0x0000 := by decide
theorem test_rdpoly : (ran (.rdpoly .i0) start).map State.res = some 0x0007 := by decide
/-- Any STS read clears UDR, whichever flag is asked for. -/
theorem test_rdflag : (ran (.rdflag .i0 .txe) (withBlock (flags 0x000A rst))).map (fun t => (t.res, stsval t.inst0))
    = some (0x0001, 0x0002) := by decide
theorem test_rdflag_arms : (ran (.rdflag .i0 .modf) (withBlock (flags 0x0022 rst))).map
    (fun t => (t.res, t.inst0.modf, t.inst0.modfArm)) = some (0x0001, true, true) := by decide
theorem test_inten : (blockAfter (.inten .i0 .txe) rst).map (fun b => (b.ctrl2, irq b)) = some (0x0080, true) := by decide
theorem test_intdis : (blockAfter (.intdis .i0 .err) { rst with ctrl2 := 0x00E7 }).map Block.ctrl2 = some 0x00C7 := by decide
theorem test_rdint : (ran (.rdint .i0 .err) (withBlock (flags 0x000A { rst with ctrl2 := 0x0020 }))).map
    (fun t => (t.res, stsval t.inst0)) = some (0x0001, 0x0002) := by decide
theorem test_rdint_not_enabled : (ran (.rdint .i0 .err) (withBlock (flags 0x0012 { rst with ctrl2 := 0x00C0 }))).map State.res
    = some 0x0000 := by decide
/-- S6. -/
theorem test_clrflag : (blockAfter (.clrflag .i0 .ovr) (flags 0x00FF rst)).map stsval = some 0x00EF := by decide
theorem test_clrint : (blockAfter (.clrint .i0 .txe) (flags 0x00FF rst)).map stsval = some 0x00EF := by decide
theorem test_busrd : (ran (.busrd .i0 .sts) start).map State.res = some 0x0002 := by decide
/-- F12: the read shows all three flags and takes the first two away. -/
theorem test_busrd_sts : (ran (.busrd .i0 .sts) (withBlock (flags 0x006A { rst with ovrArm := true }))).map
    (fun t => (t.res, stsval t.inst0, t.inst0.ovrArm, t.inst0.modfArm)) = some (0x006A, 0x0022, false, true) := by decide
theorem test_buswr_ctrl2 : (blockAfter (.buswr .i0 .ctrl2 0xFFFF) rst).map Block.ctrl2 = some 0x00E7 := by decide
/-- Writing 1 to bit 4 has no effect. -/
theorem test_buswr_sts : (blockAfter (.buswr .i0 .sts 0x0010) (flags 0x00FF rst)).map stsval = some 0x00FF := by decide

/-- The branch table's stream: ten one-word commands. -/
def branchState (pc : Nat) (res : Word) : State := { start with prog := List.replicate 10 0x0000001F#32, pc := pc, res := res }

/-- What a branch leaves: the pc and REFUSED. -/
def branched (i : Instr) (s : State) : Option (Nat × Option Reason) := (ran i s).map fun t => (t.pc, t.refused)

theorem test_bz : branched (.bz (-1)) (branchState 5 0) = some (4, none)
    ∧ branched (.bz (-1)) (branchState 5 1) = some (6, none) ∧ branched (.bz 5) (branchState 5 0) = some (10, none) := by decide
theorem test_bz_bad_target : branched (.bz 6) (branchState 5 0) = some (5, some .badTarget)
    ∧ branched (.bz (-6)) (branchState 5 0) = some (5, some .badTarget)
    ∧ branched (.bz (-1)) { branchState 3 0 with prog := [0x1F, 0x02, 0x07, 0xFFFF001D] } = some (3, some .badTarget) := by decide
theorem test_bnz : branched (.bnz (-1)) (branchState 5 1) = some (4, none)
    ∧ branched (.bnz (-1)) (branchState 5 0) = some (6, none) := by decide
theorem test_halt : (ran .halt (branchState 5 0)).map (fun t => (t.pc, t.halted)) = some (5, true) := by decide

/-! ### One step of the machine -/

/-- The state a step leaves. -/
def stepped (s : State) : Option State :=
  match step s with
  | .next t => some t
  | .fault _ => none
  | .refused _ => none

/-- P6's third program, with no bus access. -/
theorem test_step_illegal : step { start with prog := [0x00000020] } = .next { start with prog := [0x00000020], refused := some .illegal } := rfl
/-- P6's first program at its second word. -/
theorem test_step_truncated : step { start with prog := [0x00000003, 0x00000002], pc := 1 }
    = .next { start with prog := [0x00000003, 0x00000002], pc := 1, refused := some .truncated } := rfl
/-- EV_RX(0x00A5) between RDINT's two accesses shows in the status term (43_status_interrupt.md R205); every event of a turn is
applied, each to its own instance. -/
theorem test_step_between_accesses : (stepped { withBlock { rst with ctrl2 := 0x0040 } with
      prog := [0x00000118], sched := upcoming [[], [(.i0, .txcrc 0x1234), (.i0, .rx 0x00A5), (.i1, .udr)]] }).map
    (fun t => (t.res, t.inst0.txcrc, t.inst1.udr, t.sched)) = some (0x0001, 0x1234, true, upcoming []) := by decide
/-- An endless schedule: with EV_UDR before every access, RDFLAG UDR reads 1, which leaves UDR 0 (60_exceptions.md R245), and the engines
go on as before (20_memory.md R60). -/
theorem test_step_endless_engine : (stepped { start with
      prog := [0x00000315], sched := { upcoming [] with later := .repeating [[(.i0, .udr)]] } }).map
    (fun t => (t.res, t.inst0.udr, t.sched)) = some (0x0001, false, { upcoming [] with later := .repeating [[(.i0, .udr)]] }) := by decide
/-- R172 corner case (a), R280: a frame received after SETFRAME's second access, the length staying 16-bit, is an 8-bit one where
the chip's P_RX8_UPPER is zero. -/
theorem test_setframe_intermediate : (ran (.setframe .i0 .bits16) { withBlock { rst with ctrl1 := 0x0800 } with
      sched := upcoming [[], [], [(.i0, .rx 0x12A5)]] }).map (fun t => (t.inst0.ctrl1, t.inst0.rxbuf))
    = some (0x0800, rxFrame Config.rx8Upper false 0x12A5) := rfl

/-- The words that the opcode table's numbering gives ENABLE and DefaultConfig, placed and run as the first after reset. -/
theorem test_first_after_reset :
    (stepped (start.withFetchWord 32 0x00000003)).map (fun t => (t.inst0.ctrl1, t.pc)) = some (0x0040, 1)
      ∧ (stepped (State.reset.withFetchWord 64 0x0000000700000042)).map (fun t => (t.inst1.cfgDone, t.pc)) = some (true, 2) := by
  decide

/-! ### Witnesses: a case that meets the hypotheses of each statement that has some -/

/-- The largest and the smallest offset. -/
theorem witness_DecodeOfEncode : Instr.wellFormed (.bz (-32768)) = true ∧ Instr.wellFormed (.bnz 32767) = true := by decide
/-- A command of one word and one of two, each with words after it. -/
theorem witness_EncodeOfDecode :
    decode [0x8000001D, 0x00000020] = .ok (.bz (-32768), [0x00000020])
      ∧ decode [0x00000002, 0x00000007, 0x0000001F] = .ok (.configure .i0 defaultConfig, [0x0000001F]) := by decide
/-- A word that is no CONFIGURE, in the last place; a CONFIGURE with a word after it. -/
theorem witness_IllegalExactlyAsListed : ((0x0000003F : CmdWord).toNat % 64 = 2 → ([] : List CmdWord) ≠ [])
    ∧ ((0x0000F802 : CmdWord).toNat % 64 = 2 → ([0x00000007] : List CmdWord) ≠ []) := by decide
/-- First clause: witness_EncodeOfDecode. Second: the largest legal CFG, and the smallest illegal one. -/
theorem witness_CommandLengthByOpcode : ((0x07FF0002 : CmdWord).toNat % 64 = 2 ∧ ¬ Illegal 0x07FF0002 [])
    ∧ (0x08000002 : CmdWord).toNat % 64 = 2 ∧ Illegal 0x08000002 [] := by
  refine ⟨⟨by decide, fun h => ?_⟩, by decide, Or.inr (Or.inr (Or.inl (by decide)))⟩
  obtain h | h | h | h | ⟨-, w2, rest, h, -⟩ := h
  · revert h; decide
  · revert h; decide
  · revert h; decide
  · revert h; decide
  · cases h
theorem witness_DecodedInvertsEncoded : decoded 0x3040 = some defaultConfig.toCtrl1Fields := by decide
/-- Armed and not armed. -/
theorem witness_ClearMachineTable :
    ((rst.ovrArm = true → rst.ovr = true) ∧ (rst.modfArm = true → rst.modf = true))
      ∧ let b := flags 0x0060 { rst with ovrArm := true, modfArm := true }
        b.ovrArm = true ∧ (b.ovrArm = true → b.ovr = true) ∧ b.modfArm = true ∧ (b.modfArm = true → b.modf = true) := by decide
/-- Empty turns and then an event. -/
def busyLater (k : Nat) : Schedule := upcoming (List.replicate k [] ++ [[(.i0, .ovr)]])
theorem witness_quiet : ∀ k < 9, State.quiet k { start with sched := busyLater k } = true
    ∧ State.quiet (k + 1) { start with sched := busyLater k } = false := by decide
theorem witness_OverrunClearSequence : let s := { withBlock (flags 0x0043 rst) with sched := busyLater 3 }
    s.quiet 3 = true ∧ (s.blk .i0).ovr = true ∧ (s.blk .i0).ovrArm = false := by decide
theorem witness_ModeFaultClearSequence : let s := { withBlock (flags 0x0022 rst) with sched := busyLater 3 }
    s.quiet 3 = true ∧ (s.blk .i0).modf = true ∧ (s.blk .i0).modfArm = false := by decide
/-- An empty turn, and a turn with an event, a listed one and one of a cycle. -/
theorem witness_EngineTurnAppliesItsEvents : start.sched.head = [] ∧ (busyLater 0).head = (.i0, .ovr) :: []
    ∧ Schedule.head { upcoming [] with later := .repeating [[(.i1, .udr)]] } = (.i1, .udr) :: [] := by decide
/-- Each of the four flags set before and cleared after, by its own mechanism and by RESET. -/
theorem witness_ErrorFlagsClearOnlyByTheirMechanism :
    (blockAfter (.clrflag .i0 .ovr) (flags 0x0010 rst)).map Block.crcerr = some false
    ∧ (blockAfter (.rdflag .i0 .txe) (flags 0x0008 rst)).map Block.udr = some false
    ∧ (blockAfter (.busrd .i0 .sts) (flags 0x0040 { rst with ovrArm := true })).map Block.ovr = some false
    ∧ (blockAfter (.enable .i0) (flags 0x0020 { rst with modfArm := true })).map Block.modf = some false
    ∧ (blockAfter (.reset .i0) (flags 0x0078 rst)).map (fun b => (b.crcerr, b.udr, b.ovr, b.modf))
      = some (false, false, false, false) := by decide
/-- A state with both latches armed that meets the invariant, and its next state. -/
theorem witness_StepKeepsBlocksGood :
    let s := { withBlock (flags 0x0060 { rst with ctrl2 := 0x00E7, ovrArm := true, modfArm := true }) with prog := [0x00000008] }
    s.Inv ∧ (stepped s).isSome = true := by decide
/-- One step from the start, an overrun before it: the DATA read arms the latch. -/
theorem witness_ArmedOnlyWithFlagSet :
    ∃ t, core.run 1 { State.reset with prog := [0x00000008], sched := upcoming [[(.i0, .ovr)]], port := [] } = .next t
      ∧ (t.blk .i0).ovrArm = true := ⟨_, rfl, by decide⟩
/-- A pc on a boundary past a CONFIGURE and one at the end, and their next states. -/
theorem witness_StepKeepsPcOnBoundary :
    let prog : List CmdWord := [0x00000002, 0x00000007, 0x0000001F]
    State.pcInStream { start with prog := prog, pc := 2 } ∧ (stepped { start with prog := prog, pc := 2 }).isSome = true
      ∧ State.pcInStream { start with prog := prog, pc := 3 } ∧ (stepped { start with prog := prog, pc := 3 }).isSome = true
      ∧ ¬ State.pcInStream { start with prog := prog, pc := 1 } := by decide
/-- The same runs serve StreamIsFixed; here both marks are set. -/
theorem witness_MarksAreNeverCleared :
    (stepped { start with halted := true }).isSome = true ∧ (stepped { start with refused := some .illegal }).isSome = true := by
  decide
/-- Next states of a command that returns a value, of one that returns a Boolean, and of one that returns none; they serve
FrameOutsideTheBlocks too. -/
theorem witness_ResultsGoToResAndOut :
    (ran (.rdpoly .i1) start).isSome = true ∧ (ran (.rdint .i0 .err) start).isSome = true
      ∧ (ran (.setframe .i0 .bits16) start).isSome = true ∧ (ran .halt start).isSome = true := by decide
/-- An access of the other instance; a command of it and one of none, where both states have a next one. -/
theorem witness_InstancesAreIsolated :
    Inst.i1 ≠ Inst.i0 ∧ instOf (.configure .i1 defaultConfig) ≠ some .i0 ∧ (ran (.configure .i1 defaultConfig) start).isSome = true
      ∧ (ran (.configure .i1 defaultConfig) (start.setBlk .i0 (flags 0x00FF rst))).isSome = true
      ∧ instOf .halt ≠ some .i0 ∧ (ran .halt start).isSome = true := by decide
/-- At the start of a stream, and at its last command. -/
theorem witness_StepRunsTheDecodedCommand :
    let prog : List CmdWord := [0x00000002, 0x00000007, 0x0000001F]
    (start.halted = false ∧ start.refused = none ∧ start.port = [])
      ∧ (isBoundary prog 0 = true ∧ decode (prog.drop 0) = .ok (.configure .i0 defaultConfig, [0x0000001F]))
      ∧ isBoundary prog 2 = true ∧ decode (prog.drop 2) = .ok (.halt, []) := by decide
/-- First clause: inside a CONFIGURE, and beyond the end. Second: each of the two reasons. -/
theorem witness_FetchRefusals :
    let prog : List CmdWord := [0x00000002, 0x00000007]
    (isBoundary prog 1 = false ∧ 1 ≠ prog.length) ∧ (isBoundary prog 3 = false ∧ 3 ≠ prog.length)
      ∧ (isBoundary [0x00000020] 0 = true ∧ decode [0x00000020] = .error .illegal)
      ∧ (isBoundary [0x00000003, 0x00000002] 1 = true ∧ decode [0x00000002] = .error .truncated) := by decide
theorem witness_PlacedWordIsRun : decodeTableWord 32 0x07FE0003 = none ∧ decodeTableWord 32 0x00000003 = some (.enable .i0)
    ∧ decodeTableWord 64 0x0000000700000002 = some (.configure .i0 defaultConfig) := by decide
/-- Some address answers: the first of instance 0's block. -/
theorem witness_AddressMap : busTarget (Config.base .i0) = some (.i0, .ctrl1) := by
  simp [busTarget, mappedRegs, regAddr, regOffset]
/-- A request at an address. -/
def request (m : Master) (addr width : Nat) (data : Option Word) : BusRequest := { master := m, addr, width, data }
/-- A request that waits at a command; and one past the lower block's first register, unmapped whatever the bases are. -/
theorem witness_BusPortAnswers :
    (let s := { start with prog := [0x0000001F], port := [request .own 0 8 none] }
     s.halted = false ∧ s.refused = none ∧ s.pc ≠ s.prog.length ∧ s.port = request .own 0 8 none :: []) ∧
    (request .other 0 16 none).master = .other
    ∧ ((request .own 0 8 none).master = .own ∧ (request .own 0 8 none).width ≠ 16)
    ∧ (∀ n r, (request .own (Config.lowerBase + 1) 16 none).addr ≠ Config.base n + regOffset r)
    ∧ (request .own (Config.base .i1 + 0x18) 16 none).addr = Config.base .i1 + regOffset .txcrc
    ∧ (request .own (Config.base .i0) 16 (some 0x1234)).addr = Config.base .i0 + regOffset .ctrl1 := by
  refine ⟨by decide, rfl, ⟨rfl, by decide⟩, ?_, rfl, rfl⟩
  intro n r
  simp only [request, Config.base]
  cases r <;> simp only [regOffset] <;> split <;> omega
/-- No event after the CTRL1 write, events before it. -/
theorem witness_ConfigureResult :
    let s : State := { start with sched := upcoming [[(.i0, .modf)], [(.i0, .crcdone)], [], [(.i0, .modf)]] }
    State.quiet 1 { s with sched := s.sched.drop 2 } = true := by decide
theorem witness_ConfigureIsIdempotent : State.quiet 6 { start with sched := busyLater 6 } = true := by decide
theorem witness_ConfigureDoesNotEnable :
    let s := { start with sched := busyLater 3 }
    s.quiet 3 = true ∧ s.blk .i0 = Block.reset 0x00A5 := by decide
/-- A frame in the third turn, and one in the fourth. -/
theorem witness_SetFrameCommand :
    ((upcoming [[], [], [(.i0, .rx 0x12A5)]]).drop 2).head = [(.i0, .rx 0x12A5)]
      ∧ ((upcoming [[], [], [(.i0, .rx 0x12A5)]]).drop 3).head = []
      ∧ ((upcoming [[], [], [], [(.i0, .rx 0x12A5)]]).drop 3).head = [(.i0, .rx 0x12A5)] := by decide
theorem witness_SetFrameConverges : State.quiet 8 { start with sched := busyLater 8 } = true := by decide
theorem witness_PeripheralStates : pState rst ≠ .error ∧ pState { rst with ctrl1 := 0x0040 } = .enabledIdle := by decide
theorem witness_ErrorIsNotASink :
    let s := { withBlock { rst with ovr := true, ctrl1 := 0x0040 } with sched := busyLater 2 }
    s.quiet 2 = true ∧ (s.blk .i0).ovr = true ∧ (s.blk .i0).udr = false ∧ (s.blk .i0).crcerr = false
      ∧ (s.blk .i0).modf = false ∧ (s.blk .i0).ctrl1.getLsbD 6 = true ∧ (s.blk .i0).bsy = false := by decide
/-- Targets where the clauses meet: the first boundary, the last, the end; one below 0, one past the end, one inside a command. -/
theorem witness_Branches :
    let prog : List CmdWord := [0x00000002, 0x00000007, 0x0000001D]
    ((0 : Int) ≤ 0 ∧ isBoundary prog 0 = true) ∧ ((0 : Int) ≤ 2 ∧ isBoundary prog 2 = true)
      ∧ ((0 : Int) ≤ 3 ∧ (3 : Int).toNat = prog.length)
      ∧ ((-1 : Int) < 0) ∧ (isBoundary prog 4 = false ∧ 4 ≠ prog.length) ∧ (isBoundary prog 1 = false ∧ 1 ≠ prog.length) := by
  decide
theorem witness_HaltEndsTheRun :
    State.halted { start with halted := true } = true ∧ State.refused { start with refused := some .badTarget } ≠ none
      ∧ start.pc = start.prog.length ∧ start.refused = none := by decide

end Sys2Proof.Tests
end

