-- ==== Sys2Proof/Proofs/Marks.lean ====
section
/-! The stopped machine, and the two marks of 10_state.md R23. A machine with a mark is stopped, and a stopped machine's step is one
engine turn, which changes neither mark. -/

namespace Sys2Proof.Machine

theorem stopped_iff {s : State} :
    stopped s = true ↔ s.halted = true ∨ s.refused ≠ none ∨ s.pc = s.prog.length := by
  simp [stopped, Option.isSome_iff_ne_none, or_assoc]

theorem step_of_stopped {s : State} (h : stopped s = true) : step s = .next (engineTurn s) := if_pos h

/-- R276: the only next state of a stopped machine is the one after the engines' turn. -/
theorem eq_engineTurn_of_stopped {s t : State} (h : stopped s = true) (hstep : step s = .next t) : t = engineTurn s :=
  (Host.Outcome.next.inj ((step_of_stopped h).symm.trans hstep)).symm

theorem step_keeps_halted {s t : State} (hstep : step s = .next t) (h : s.halted = true) : t.halted = true := by
  have hstop : stopped s = true := stopped_iff.2 (.inl h)
  rw [eq_engineTurn_of_stopped hstop hstep, halted_engineTurn, h]

theorem step_keeps_refused {s t : State} {why : Reason} (hstep : step s = .next t) (h : s.refused = some why) :
    t.refused = some why := by
  have hstop : stopped s = true := stopped_iff.2 (.inr (.inl (by simp [h])))
  rw [eq_engineTurn_of_stopped hstop hstep, refused_engineTurn, h]

/-- Settles O24: the start has neither mark, and a machine with one only lets the engines have their turns. -/
theorem marksAreNeverCleared : Obligations.MarksAreNeverCleared :=
  ⟨⟨rfl, rfl⟩, fun _ _ hstep => ⟨step_keeps_halted hstep, fun _ => step_keeps_refused hstep⟩⟩

end Sys2Proof.Machine
end

