-- ==== Sys2Proof/Proofs/Kept.lean ====
section
/-! What a step keeps. Every command and every step is made of a few operations; a property of states that each of them keeps is kept by
the step. -/

namespace Sys2Proof.Machine

/-- Each operation that a step is made of keeps `P`. `jump` is every change of the pc: `advance` and a taken branch. -/
structure KeptByOps (P : State → Prop) : Prop where
  turn {s : State} : P s → P (engineTurn s)
  read {s : State} (n : Inst) (r : Reg) : P s → P (busRead n r s).2
  write {s : State} (n : Inst) (r : Reg) (v : Word) : P s → P (busWrite n r v s)
  report {s : State} (v : Word) : P s → P (report v s)
  jump {s : State} (k : Nat) : P s → P { s with pc := k }
  refuse {s : State} (why : Reason) : P s → P (refuse why s)
  halt {s : State} : P s → P (halt s)
  reset {s : State} (n : Inst) : P s → P (resetPulse n s)
  mark {s : State} (n : Inst) : P s → P (markConfigured n s)
  unqueue {s : State} (rest : List BusRequest) : P s → P { s with port := rest }

namespace KeptByOps

variable {P : State → Prop} {s t : State}

theorem modify (hP : KeptByOps P) (n : Inst) (r : Reg) (f : Word → Word) (hs : P s) : P (readModifyWrite n r f s) :=
  hP.write n r _ (hP.read n r hs)

theorem readReported (hP : KeptByOps P) (n : Inst) (r : Reg) (hs : P s) : P (readToResult n r s) :=
  hP.report _ (hP.read n r hs)

theorem branch (hP : KeptByOps P) (taken : Bool) (off : Int) (hs : P s) : P (branchIf taken off s) := by
  obtain ⟨_, h⟩ | ⟨_, h⟩ := branchIf_cases taken off s <;> rw [h]
  · exact hP.jump _ (hP.turn hs)
  · exact hP.refuse _ (hP.turn hs)

theorem served (hP : KeptByOps P) (q : BusRequest) (hs : P s) : P (serveRequest q s) := by
  obtain ⟨n, r, h⟩ | ⟨n, r, v, h⟩ | ⟨why, _, h⟩ := serveRequest_cases q s <;> rw [h]
  · exact hP.readReported n r hs
  · exact hP.write n r v hs
  · exact hP.refuse why (hP.turn hs)

/-- Every command answers with a next state, and it has the property. -/
theorem exec_next (hP : KeptByOps P) (i : Instr) (hs : P s) : ∃ t, exec i s = .next t ∧ P t := by
  cases i with
  | reset n => exact ⟨_, rfl, hP.jump _ (hP.reset n hs)⟩
  | configure n c => exact ⟨_, rfl, hP.jump _ (hP.mark n (hP.write n _ _ (hP.modify n _ _ hs)))⟩
  | enable n | disable n | dmaen n | dmadis n | ssiset n | ssiclr n | ssoeen n | ssoedis n | setdir n | crcen n | crcdis n
  | crcnext n | inten n | intdis n => exact ⟨_, rfl, hP.jump _ (hP.modify n _ _ hs)⟩
  | setframe n len => exact ⟨_, rfl, hP.jump _ (hP.modify n _ _ (hP.modify n _ _ hs))⟩
  | txdata n | clrflag n | clrint n | buswr n => exact ⟨_, rfl, hP.jump _ (hP.write n _ _ hs)⟩
  | rxdata n | rdtxcrc n | rdrxcrc n | rdpoly n | busrd n => exact ⟨_, rfl, hP.jump _ (hP.readReported n _ hs)⟩
  | rdflag n f => exact ⟨_, rfl, hP.jump _ (hP.report _ (hP.read n _ hs))⟩
  | rdint n src => exact ⟨_, rfl, hP.jump _ (hP.report _ (hP.read n _ (hP.read n _ hs)))⟩
  | bz off | bnz off => exact ⟨_, rfl, hP.branch _ off hs⟩
  | halt => exact ⟨_, rfl, hP.halt (hP.turn hs)⟩

/-- Every step answers with a next state, and it has the property. -/
theorem step_next (hP : KeptByOps P) (hs : P s) : ∃ t, step s = .next t ∧ P t := by
  by_cases hstop : stopped s = true
  · exact ⟨_, step_of_stopped hstop, hP.turn hs⟩
  · rw [step, if_neg hstop]
    split
    · exact ⟨_, rfl, hP.served _ (hP.unqueue _ hs)⟩
    · split
      · exact hP.exec_next _ hs
      · exact ⟨_, rfl, hP.refuse _ (hP.turn hs)⟩

theorem of_step (hP : KeptByOps P) (hstep : step s = .next t) (hs : P s) : P t := by
  obtain ⟨t', hstep', ht'⟩ := hP.step_next hs
  obtain rfl : t = t' := Host.Outcome.next.inj (hstep.symm.trans hstep')
  exact ht'

end KeptByOps

end Sys2Proof.Machine
end

