-- ==== Sys2Proof/Proofs/Stream.lean ====
section
/-! The command stream is fixed (20_memory.md R64): no operation that a step is made of writes PROG. -/

namespace Sys2Proof.Machine

@[simp] theorem prog_resetPulse (n : Inst) (s : State) : (resetPulse n s).prog = s.prog := by simp [resetPulse]

@[simp] theorem prog_markConfigured (n : Inst) (s : State) : (markConfigured n s).prog = s.prog :=
  State.prog_setBlk _ _ _

theorem keptByOps_prog (prog : List CmdWord) : KeptByOps fun s => s.prog = prog where
  turn {s} := (prog_engineTurn s).trans
  read {s} n r := (prog_busRead n r s).trans
  write {s} n r v := (prog_busWrite n r v s).trans
  report {s} v := (prog_report s v).trans
  jump _ hs := hs
  refuse {s} why := (prog_refuse s why).trans
  halt {s} := (prog_halt s).trans
  reset {s} n := (prog_resetPulse n s).trans
  mark {s} n := (prog_markConfigured n s).trans
  unqueue _ hs := hs

/-- Settles O23: having this stream is a property that every operation of a step keeps. -/
theorem streamIsFixed : Obligations.StreamIsFixed :=
  fun s _ hstep => (keptByOps_prog s.prog).of_step hstep rfl

end Sys2Proof.Machine
end

