-- ==== Sys2Proof/Proofs/Illegal.lean ====
section
/-! The decoder refuses a word exactly where R89's table does not have it: each form of a row, the selectors, and CONFIGURE's two words
(30_encoding.md R89, R91). -/

namespace Sys2Proof

open Claims

/-! ### The fields of a word as numbers -/

theorem toNat_op_unpack (w : CmdWord) : (unpack w).op.toNat = w.toNat % 64 := by
  simp [unpack, opOf, BitVec.extractLsb'_toNat]

theorem toNat_sel_unpack (w : CmdWord) : (unpack w).sel.toNat = w.toNat / 256 % 256 := by
  simp [unpack, BitVec.extractLsb'_toNat, Nat.shiftRight_eq_div_pow]

theorem toNat_imm_unpack (w : CmdWord) : (unpack w).imm.toNat = w.toNat / 65536 := by
  simp [unpack, BitVec.extractLsb'_toNat, Nat.shiftRight_eq_div_pow]
  omega

theorem n_unpack_eq_i0_iff (w : CmdWord) : (unpack w).n = .i0 ↔ w.getLsbD 6 = false := by
  rw [unpack]
  cases w.getLsbD 6 <;> simp [instOfBit]

theorem isTwoWord_iff (w : CmdWord) : isTwoWord w = true ↔ w.toNat % 64 = 2 := by
  rw [isTwoWord, beq_iff_eq, BitVec.toNat_eq, ← toNat_op_unpack]; rfl

theorem polyWordOk_iff (w : CmdWord) : polyWordOk w = true ↔ w.toNat < 65536 := by
  rw [polyWordOk, beq_iff_eq, BitVec.toNat_eq]
  simp [BitVec.extractLsb'_toNat, Nat.shiftRight_eq_div_pow]
  omega

/-! ### Which selectors each operand has -/

@[simp] theorem channelOfSel_isSome (x : BitVec 8) : (channelOfSel x).isSome = true ↔ x.toNat < 2 := by
  unfold channelOfSel; split <;> simp_all; bv_omega
@[simp] theorem frameLenOfSel_isSome (x : BitVec 8) : (frameLenOfSel x).isSome = true ↔ x.toNat < 2 := by
  unfold frameLenOfSel; split <;> simp_all; bv_omega
@[simp] theorem directionOfSel_isSome (x : BitVec 8) : (directionOfSel x).isSome = true ↔ x.toNat < 2 := by
  unfold directionOfSel; split <;> simp_all; bv_omega
@[simp] theorem flagOfSel_isSome (x : BitVec 8) : (flagOfSel x).isSome = true ↔ x.toNat < 8 := by
  unfold flagOfSel; split <;> simp_all; bv_omega
@[simp] theorem sourceOfSel_isSome (x : BitVec 8) : (sourceOfSel x).isSome = true ↔ x.toNat < 3 := by
  unfold sourceOfSel; split <;> simp_all; bv_omega
@[simp] theorem regOfSel_isSome (x : BitVec 8) : (regOfSel x).isSome = true ↔ x.toNat < 7 := by
  unfold regOfSel; split <;> simp_all; bv_omega

/-! ### Which fields each form takes -/

@[simp] theorem plainForm_isSome (f : Fields) (i : Instr) :
    (plainForm f i).isSome = true ↔ f.sel.toNat < 1 ∧ f.imm.toNat ≤ 0 := by
  simp [plainForm, BitVec.toNat_eq]

@[simp] theorem selForm_isSome {α : Type} (f : Fields) (operand : BitVec 8 → Option α) (k : α → Instr) :
    (selForm f operand k).isSome = true ↔ (operand f.sel).isSome = true ∧ f.imm.toNat ≤ 0 := by
  by_cases h : f.imm = 0#16 <;> simp_all [selForm, BitVec.toNat_eq]

@[simp] theorem immForm_isSome (f : Fields) (k : BitVec 16 → Instr) :
    (immForm f k).isSome = true ↔ f.sel.toNat < 1 := by
  simp [immForm, BitVec.toNat_eq]

@[simp] theorem noInst_isSome (f : Fields) (i : Option Instr) :
    (noInst f i).isSome = true ↔ f.n = .i0 ∧ i.isSome = true := by
  by_cases h : f.n = .i0 <;> simp [noInst, h]

theorem configureHeadOk_iff (f : Fields) :
    configureHeadOk f = true ↔ f.z = false ∧ f.sel.toNat < 1 ∧ f.imm.toNat ≤ 0x07FF := by
  simp [configureHeadOk, BitVec.toNat_eq, BitVec.extractLsb'_toNat, Nat.shiftRight_eq_div_pow, and_assoc]
  omega

/-- A first word's fields are as a row of R89's table has them: R91 (b) to (e) do not apply to that word. -/
def RowAdmits (row : Row) (f : Fields) : Prop :=
  f.z = false ∧ f.sel.toNat < row.sels ∧ f.imm.toNat ≤ row.immMax ∧ (row.noInst = true → f.n = .i0)

/-- R91 (a): the opcodes without a row are 0x00 and 0x20 to 0x3F. -/
theorem rowOf_reserved {op : Nat} (h : op = 0 ∨ 0x20 ≤ op) : rowOf op = none := by
  unfold rowOf
  iterate 10 rw [if_neg (by omega)]

/-- A one-word command is decoded exactly where its opcode has a row and the row admits the fields. -/
theorem decodeOneWord_isSome {f : Fields} (hop : f.op ≠ 0x02#6) :
    (decodeOneWord f).isSome = true ↔ ∃ row, rowOf f.op.toNat = some row ∧ RowAdmits row f := by
  have himm : f.imm.toNat ≤ 65535 := Nat.le_of_lt_succ f.imm.isLt
  cases hz : f.z with
  | true => simp [decodeOneWord, RowAdmits, hz]
  | false =>
    rw [decodeOneWord, if_neg (by simp [hz])]
    split
    case h_31 =>
      have hreserved : rowOf f.op.toNat = none := by
        apply rowOf_reserved
        simp only [imp_false] at *
        bv_omega
      simp [hreserved]
    all_goals simp_all [rowOf, RowAdmits, and_comm, and_left_comm]

/-- CONFIGURE is refused as illegal for its first word, or for its second where there is one. -/
theorem decodeConfigure_illegal_iff {f : Fields} {rest : List CmdWord} (hrest : rest ≠ []) :
    decodeConfigure f rest = .error .illegal
      ↔ configureHeadOk f = false ∨ ∃ w2 rest', rest = w2 :: rest' ∧ polyWordOk w2 = false := by
  obtain ⟨w2, rest', rfl⟩ := List.exists_cons_of_ne_nil hrest
  cases hhead : configureHeadOk f <;> cases hpoly : polyWordOk w2 <;> simp [decodeConfigure, hhead, hpoly]

theorem decode_of_twoWord {w : CmdWord} (h : isTwoWord w = true) (rest : List CmdWord) :
    decode (w :: rest) = decodeConfigure (unpack w) rest := by
  rw [decode, if_pos h]

theorem decode_illegal_iff_of_oneWord {w : CmdWord} (h : isTwoWord w = false) (rest : List CmdWord) :
    decode (w :: rest) = .error .illegal ↔ decodeOneWord (unpack w) = none := by
  cases hi : decodeOneWord (unpack w) <;> simp [decode, h, hi]

/-! ### R91's cases -/

theorem rowAdmits_unpack_iff (row : Row) (w : CmdWord) :
    RowAdmits row (unpack w) ↔ w.getLsbD 7 = false ∧ w.toNat / 256 % 256 < row.sels ∧ w.toNat / 65536 ≤ row.immMax
      ∧ (row.noInst = true → w.getLsbD 6 = false) := by
  rw [RowAdmits, toNat_sel_unpack, toNat_imm_unpack, n_unpack_eq_i0_iff]; rfl

/-- A word is illegal exactly where its opcode has no row that admits its fields, or for a CONFIGURE's second word. -/
theorem illegal_iff (w : CmdWord) (rest : List CmdWord) :
    Illegal w rest ↔ (¬ ∃ row, rowOf (unpack w).op.toNat = some row ∧ RowAdmits row (unpack w))
      ∨ (isTwoWord w = true ∧ ∃ w2 rest', rest = w2 :: rest' ∧ polyWordOk w2 = false) := by
  have hpoly (w2 : CmdWord) : polyWordOk w2 = false ↔ 65536 ≤ w2.toNat := by
    rw [← Bool.not_eq_true, polyWordOk_iff, Nat.not_lt]
  simp only [toNat_op_unpack, isTwoWord_iff, hpoly, rowAdmits_unpack_iff, Illegal]
  cases hrow : rowOf (w.toNat % 64) with
  | none => simp
  | some row =>
    simp only [Option.some.injEq, exists_eq_left', not_and_or, Bool.not_eq_false, Nat.not_lt, Nat.not_le,
      Classical.not_imp, or_assoc]

theorem configureHeadOk_iff_row {f : Fields} (hop : f.op = 0x02#6) :
    configureHeadOk f = true ↔ ∃ row, rowOf f.op.toNat = some row ∧ RowAdmits row f := by
  simp [configureHeadOk_iff, hop, rowOf, RowAdmits]

/-- Settles O3: of a CONFIGURE both words are compared with R91's cases, of any other opcode the row of R89's table. -/
theorem illegalExactlyAsListed : Obligations.IllegalExactlyAsListed := by
  intro w rest hrest
  rw [illegal_iff]
  cases h2 : isTwoWord w with
  | true =>
    have hop : (unpack w).op = 0x02#6 := beq_iff_eq.1 h2
    rw [decode_of_twoWord h2, decodeConfigure_illegal_iff (hrest ((isTwoWord_iff w).1 h2)),
      ← Bool.not_eq_true, configureHeadOk_iff_row hop]
    simp
  | false =>
    have hop : (unpack w).op ≠ 0x02#6 := beq_eq_false_iff_ne.1 h2
    rw [decode_illegal_iff_of_oneWord h2, ← Option.not_isSome_iff_eq_none, decodeOneWord_isSome hop]
    simp

end Sys2Proof
end

