-- ==== Sys2Proof/Proofs/Masks.lean ====
section
/-! Values that stay within a mask. The eight field encodings of CTRL1 each stay within their field, and no two fields share a bit
(30_encoding.md R76, R77); STSVAL has one bit for each flag and stays within its lower byte (R79, 10_state.md R29). -/

namespace Sys2Proof.Machine

/-! ### Values within a mask -/

/-- Every bit of `x` is a bit of `m`. -/
def Within (m x : Word) : Prop := x &&& m = x

theorem within_or {m x y : Word} (hx : Within m x) (hy : Within m y) : Within m (x ||| y) := by
  rw [Within, BitVec.and_or_distrib_right, hx, hy]

theorem within_trans {m m' x : Word} (hx : Within m x) (hm : Within m' m) : Within m' x := by
  rw [Within, ← hx, BitVec.and_assoc, hm]

theorem and_eq_zero_of_within {m m' x y : Word} (hx : Within m x) (hy : Within m' y) (h : m &&& m' = 0) :
    x &&& y = 0 :=
  calc x &&& y = (x &&& m) &&& (y &&& m') := by rw [hx, hy]
    _ = (x &&& y) &&& (m &&& m') := by ac_rfl
    _ = 0 := by rw [h]; exact BitVec.and_zero

/-! ### The eight field encodings (R76) -/

theorem within_encDir (d : DirMode) : Within (M_BDM ||| M_BDOE ||| M_RXONLY) (encDir d) := by cases d <;> rfl
theorem within_encRole (r : Role) : Within M_MSTR (encRole r) := by cases r <;> rfl
theorem within_encFrame (l : FrameLen) : Within M_FLEN (encFrame l) := by cases l <;> rfl
theorem within_encCpol (p : Polarity) : Within M_CPOL (encCpol p) := by cases p <;> rfl
theorem within_encCpha (p : Phase) : Within M_CPHA (encCpha p) := by cases p <;> rfl
theorem within_encNss (m : SelectMode) : Within M_SSM (encNss m) := by cases m <;> rfl
theorem within_encBaud (k : BitVec 3) : Within M_BR (encBaud k) := by unfold Within; revert k; decide
theorem within_encOrder (o : BitOrder) : Within M_LSBF (encOrder o) := by cases o <;> rfl

theorem toNat_encBaud (k : BitVec 3) : (encBaud k).toNat = k.toNat * 8 := by
  have := k.isLt
  simp only [encBaud, BitVec.toNat_shiftLeft, BitVec.toNat_setWidth, Nat.shiftLeft_eq]
  omega

/-- Settles O7: the masks are numerals; the baud code is the one field with a value of its own. -/
theorem fieldCodes : Obligations.FieldCodes :=
  ⟨⟨rfl, rfl, rfl, rfl⟩, ⟨rfl, rfl⟩, ⟨rfl, rfl⟩, ⟨rfl, rfl⟩, ⟨rfl, rfl⟩, ⟨rfl, rfl⟩,
    fun k => ⟨toNat_encBaud k, rfl⟩, rfl, rfl⟩

/-! ### Their OR (R77) -/

/-- The eight encodings of R77, each with the bits of its field. -/
def fieldParts (c : Ctrl1Fields) : List (Word × Word) :=
  [(M_BDM ||| M_BDOE ||| M_RXONLY, encDir c.dir), (M_MSTR, encRole c.role), (M_FLEN, encFrame c.frame),
    (M_CPOL, encCpol c.cpol), (M_CPHA, encCpha c.cpha), (M_SSM, encNss c.nss), (M_BR, encBaud c.baud),
    (M_LSBF, encOrder c.order)]

theorem within_of_mem_fieldParts (c : Ctrl1Fields) : ∀ part ∈ fieldParts c, Within part.1 part.2 := by
  simp [fieldParts, within_encDir, within_encRole, within_encFrame, within_encCpol, within_encCpha, within_encNss,
    within_encBaud, within_encOrder]

theorem fieldMasks_disjoint (c : Ctrl1Fields) : (fieldParts c).Pairwise fun p q => p.1 &&& q.1 = 0 := by
  have hmasks : ((fieldParts c).map Prod.fst).Pairwise fun m m' => m &&& m' = 0 := by
    simp only [fieldParts, List.map]
    decide
  exact List.pairwise_map.1 hmasks

theorem fieldEncodings_disjoint (c : Ctrl1Fields) :
    ((fieldParts c).map Prod.snd).Pairwise fun x y => x &&& y = 0 :=
  List.pairwise_map.2 ((fieldMasks_disjoint c).imp_of_mem fun hp hq =>
    and_eq_zero_of_within (within_of_mem_fieldParts c _ hp) (within_of_mem_fieldParts c _ hq))

theorem within_cfgMask_encoded (c : Ctrl1Fields) : Within CFG_MASK (encoded c) := by
  unfold encoded
  repeat' apply within_or
  · exact within_trans (within_encDir _) rfl
  · exact within_trans (within_encRole _) rfl
  · exact within_trans (within_encFrame _) rfl
  · exact within_trans (within_encCpol _) rfl
  · exact within_trans (within_encCpha _) rfl
  · exact within_trans (within_encNss _) rfl
  · exact within_trans (within_encBaud _) rfl
  · exact within_trans (within_encOrder _) rfl

/-- Settles O8: each encoding stays within its field, and the eight fields are disjoint parts of CFG_MASK. -/
theorem packingIsDisjoint : Obligations.PackingIsDisjoint := fun c =>
  ⟨rfl, fieldEncodings_disjoint c, and_eq_zero_of_within (within_cfgMask_encoded c) (BitVec.and_self ..) rfl⟩

/-! ### STSVAL (R79) -/

@[simp] theorem getElem_zext16 (v : Bool) (i : Nat) (hi : i < 16) : (zext16 v)[i] = (v && decide (i = 0)) := by
  cases v <;> cases i <;> simp [zext16]

/-- Flag n stands at bit n, its number being its SEL. -/
theorem getLsbD_stsval (b : Block) (f : Flag) : (stsval b).getLsbD (selOfFlag f).toNat = Claims.flagOf b f := by
  cases f <;> simp [stsval, selOfFlag, Claims.flagOf]

theorem flagMask_eq_twoPow (f : Flag) : flagMask f = BitVec.twoPow 16 (selOfFlag f).toNat := by cases f <;> rfl

theorem and_flagMask_ne_zero (v : Word) (f : Flag) : (v &&& flagMask f != 0) = v.getLsbD (selOfFlag f).toNat := by
  have hmask : BitVec.twoPow 16 (selOfFlag f).toNat ≠ 0#16 := by cases f <;> decide
  rw [flagMask_eq_twoPow, BitVec.and_twoPow]
  cases v.getLsbD (selOfFlag f).toNat <;> simp [hmask]

theorem within_zext16_shiftLeft (v : Bool) : ∀ k < 8, Within 0x00FF (zext16 v <<< k) := by
  unfold Within; cases v <;> decide

theorem within_lowerByte_stsval (b : Block) : Within 0x00FF (stsval b) := by
  unfold stsval
  repeat' apply within_or
  case hy =>
    rw [← BitVec.shiftLeft_zero (zext16 b.rxne)]
    exact within_zext16_shiftLeft b.rxne 0 (by decide)
  all_goals exact within_zext16_shiftLeft _ _ (by decide)

/-- Settles O51: bit n of STSVAL is flag n, and the eight bits are the lower byte. -/
theorem statusBits : Obligations.StatusBits := fun b =>
  ⟨fun f => (and_flagMask_ne_zero (stsval b) f).trans (getLsbD_stsval b f), rfl,
    and_eq_zero_of_within (within_lowerByte_stsval b) (BitVec.and_self ..) rfl⟩

end Sys2Proof.Machine
end

