-- ==== Sys2Proof/Proofs/BlockWrites.lean ====
section
/-! Bus writes of a block, effect by effect (40_register_access.md R112 to R115, R117, R119). A write of any register but CTRL1 is an
access of kind `OTHER` (60_exceptions.md R243): what it stores, and then at most a disarmed latch. -/

namespace Sys2Proof.Machine

theorem blockWrite_of_other {r : Reg} (hkind : writeKind r = .other) (v : Word) (b : Block) :
    blockWrite Config.seqIntervening r v b = Claims.afterOther (writeEffect r v b) := by
  rw [blockWrite, hkind, clearStep_other]; rfl

theorem blockWrite_ctrl1 (v : Word) (b : Block) :
    blockWrite Config.seqIntervening .ctrl1 v b = Claims.afterCtrl1Write v b := clearStep_ctrl1Write ..

/-- R119: writing STS leaves CRCERR where bit 4 of the operand is 1 and clears it where it is 0. -/
theorem writeEffect_sts (v : Word) (b : Block) :
    writeEffect .sts v b = { b with crcerr := if v.getLsbD 4 then b.crcerr else false } := by
  have hbit : (b.crcerr && v.getLsbD 4) = if v.getLsbD 4 then b.crcerr else false := by
    cases v.getLsbD 4 <;> simp
  rw [writeEffect, hbit]

/-- Settles O11: a CTRL1 write is the one with a clear step of its own; of the others only the STS write decides by its operand. -/
theorem busWriteOfEachRegister : Obligations.BusWriteOfEachRegister := by
  intro r v b
  cases r with
  | ctrl1 => exact blockWrite_ctrl1 v b
  | sts => rw [blockWrite_of_other rfl, writeEffect_sts]; rfl
  | ctrl2 | data | crcpoly | rxcrc | txcrc => exact blockWrite_of_other rfl v b

end Sys2Proof.Machine
end

