-- ==== Sys2Proof/Proofs/PeripheralState.lean ====
section
/-! The implicit peripheral states (43_status_interrupt.md R222). The error flags come first; past them SPE says which further bit
decides: BSY on an enabled peripheral, CFG_DONE on a disabled one. -/

namespace Sys2Proof.Machine

theorem pState_eq_error_iff {b : Block} :
    pState b = .error ↔ b.udr = true ∨ b.crcerr = true ∨ b.modf = true ∨ b.ovr = true := by
  have hflags : (b.udr || b.crcerr || b.modf || b.ovr) = true ↔
      b.udr = true ∨ b.crcerr = true ∨ b.modf = true ∨ b.ovr = true := by simp [or_assoc]
  rw [← hflags]
  unfold pState
  split
  case isTrue h => exact iff_of_true rfl h
  case isFalse h =>
    refine iff_of_false ?_ h
    split_ifs <;> nofun

theorem pState_of_ne_error {b : Block} (h : pState b ≠ .error) :
    pState b = if spe b.ctrl1 then (if b.bsy then .enabledBusy else .enabledIdle)
      else (if b.cfgDone then .configured else .reset) := by
  have hflags : ¬ (b.udr || b.crcerr || b.modf || b.ovr) = true := fun hset => h (if_pos hset)
  rw [pState, if_neg hflags]
  cases spe b.ctrl1 <;> simp

/-- Settles O57: without an error, by cases on SPE and then on the bit that decides there. -/
theorem peripheralStates : Obligations.PeripheralStates := by
  refine fun b => ⟨pState_eq_error_iff, fun hne => ?_⟩
  rw [pState_of_ne_error hne, spe]
  cases b.ctrl1.getLsbD 6 with
  | true => cases b.bsy <;> simp
  | false => cases b.cfgDone <;> simp

end Sys2Proof.Machine
end

