-- ==== Sys2Proof/Proofs/ClearStep.lean ====
section
/-! The clear step against its pseudocode (60_exceptions.md R243). Each of the three parts is the if-chain of its flag, with the
conditions read from the block before the whole step: the parts touch disjoint state, so no part changes what a later one tests. -/

namespace Sys2Proof.Machine

/-! ### What an intervening access does to a latch (R247) -/

theorem disarm_ovrArm (p : SeqIntervening) (b : Block) : { b with ovrArm := b.ovrArm && keepsArmed p }
    = if p = .disarm then { b with ovrArm := false } else b := by
  cases p <;> simp [keepsArmed]

theorem disarm_modfArm (p : SeqIntervening) (b : Block) : { b with modfArm := b.modfArm && keepsArmed p }
    = if p = .disarm then { b with modfArm := false } else b := by
  cases p <;> simp [keepsArmed]

/-! ### The three parts, `b0` the block before the step -/

theorem clearOverrun_eq (p : SeqIntervening) (k : AccessKind) (b : Block) : clearOverrun p k b
    = if k = .stsRead ∧ b.ovrArm = true then { b with ovr := false, ovrArm := false }
      else if k = .dataRead ∧ b.ovr = true then { b with ovrArm := true }
      else if p = .disarm then { b with ovrArm := false }
      else b := by
  rw [← disarm_ovrArm]
  cases k with
  | stsRead => cases harm : b.ovrArm <;> simp [clearOverrun, harm]
  | dataRead => cases hovr : b.ovr <;> simp [clearOverrun, hovr]
  | ctrl1Read | ctrl1Write | other => simp [clearOverrun]

theorem clearUnderrun_eq (k : AccessKind) {b b0 : Block} (hudr : b.udr = b0.udr) :
    clearUnderrun k b = if k = .stsRead ∧ b0.udr = true then { b with udr := false } else b := by
  rw [← hudr]
  cases k with
  | stsRead => cases hset : b.udr <;> simp [clearUnderrun, ← hset]
  | dataRead | ctrl1Read | ctrl1Write | other => simp [clearUnderrun]

theorem clearModeFault_eq (p : SeqIntervening) (k : AccessKind) {b b0 : Block} (hmodf : b.modf = b0.modf)
    (harm : b.modfArm = b0.modfArm) : clearModeFault p k b
    = if k = .ctrl1Write ∧ b0.modfArm = true then { b with modf := false, modfArm := false }
      else if k = .stsRead ∧ b0.modf = true then { b with modfArm := true }
      else if k = .ctrl1Read then b
      else if p = .disarm then { b with modfArm := false }
      else b := by
  rw [← hmodf, ← harm, ← disarm_modfArm]
  cases k with
  | ctrl1Write => cases harmed : b.modfArm <;> simp [clearModeFault, harmed]
  | stsRead => cases hset : b.modf <;> simp [clearModeFault, hset]
  | ctrl1Read | dataRead | other => simp [clearModeFault]

/-! ### The parts touch disjoint state -/

theorem udr_clearOverrun (p : SeqIntervening) (k : AccessKind) (b : Block) : (clearOverrun p k b).udr = b.udr := by
  cases k <;> rfl

theorem modf_clearUnderrun_clearOverrun (p : SeqIntervening) (k : AccessKind) (b : Block) :
    (clearUnderrun k (clearOverrun p k b)).modf = b.modf := by
  cases k <;> rfl

theorem modfArm_clearUnderrun_clearOverrun (p : SeqIntervening) (k : AccessKind) (b : Block) :
    (clearUnderrun k (clearOverrun p k b)).modfArm = b.modfArm := by
  cases k <;> rfl

/-- Settles O12: each part is its if-chain, and what it tests is as it was before the step. -/
theorem clearStepFollowsPseudocode : Obligations.ClearStepFollowsPseudocode := by
  intro p k b
  rw [clearStep, clearModeFault_eq p k (modf_clearUnderrun_clearOverrun p k b) (modfArm_clearUnderrun_clearOverrun p k b),
    clearUnderrun_eq k (udr_clearOverrun p k b), clearOverrun_eq]
  rfl

end Sys2Proof.Machine
end

