-- ==== Sys2Proof/Proofs/OutputLines.lean ====
section
/-! The lines a block puts out (60_exceptions.md R250, R252, R253). A mask with one bit tests that bit; an interrupt source's enable
mask has one bit of CTRL2, its status mask the flags of its condition (30_encoding.md R80). -/

namespace Sys2Proof.Machine

/-! ### Testing the bits of a mask -/

theorem and_twoPow_ne_zero (v : Word) {i : Nat} (hi : i < 16) : (v &&& BitVec.twoPow 16 i != 0) = v.getLsbD i := by
  have hbit : BitVec.twoPow 16 i ≠ 0#16 := fun h => by
    simpa [hi] using congrArg (BitVec.getLsbD · i) h
  rw [BitVec.and_twoPow]
  cases v.getLsbD i <;> simp [hbit]

theorem and_or_ne_zero (v x y : Word) : (v &&& (x ||| y) != 0) = (v &&& x != 0 || v &&& y != 0) := by
  have hzero : v &&& (x ||| y) = 0 ↔ v &&& x = 0 ∧ v &&& y = 0 := by
    rw [BitVec.and_or_distrib_left]; exact BitVec.or_eq_zero_iff
  rw [Bool.eq_iff_iff, Bool.or_eq_true, bne_iff_ne, bne_iff_ne, bne_iff_ne, Ne, hzero, not_and_or]

/-! ### Interrupt sources (R80, R251) -/

/-- A source's enable mask is one implemented bit of CTRL2. -/
theorem ctrl2Impl_and_enMask (src : Source) : CTRL2_IMPL &&& enMask src = BitVec.twoPow 16 (Claims.enableBit src) := by
  cases src <;> rfl

theorem and_enMask_ne_zero (v : Word) (src : Source) :
    (v &&& CTRL2_IMPL &&& enMask src != 0) = v.getLsbD (Claims.enableBit src) := by
  have hbit : Claims.enableBit src < 16 := by cases src <;> decide
  rw [BitVec.and_assoc, ctrl2Impl_and_enMask, and_twoPow_ne_zero v hbit]

theorem stsval_and_flagMask_ne_zero (b : Block) (f : Flag) : (stsval b &&& flagMask f != 0) = Claims.flagOf b f :=
  (statusBits b).1 f

/-- ERR's status mask is the four error flags'. -/
theorem stMask_err : stMask .err = flagMask .udr ||| flagMask .crcerr ||| flagMask .modf ||| flagMask .ovr := rfl

theorem stsval_and_stMask_ne_zero (b : Block) (src : Source) : (stsval b &&& stMask src != 0) = Claims.condition b src := by
  cases src with
  | err => simp only [stMask_err, and_or_ne_zero, stsval_and_flagMask_ne_zero]; rfl
  | rxne => exact stsval_and_flagMask_ne_zero b .rxne
  | txe => exact stsval_and_flagMask_ne_zero b .txe

/-- R201: a source interrupts when its CTRL2 bit enables it and its status condition holds. -/
theorem intFlag_eq (b : Block) (src : Source) :
    intFlag b src = (b.ctrl2.getLsbD (Claims.enableBit src) && Claims.condition b src) := by
  rw [intFlag, and_enMask_ne_zero, stsval_and_stMask_ne_zero]

/-! ### DMA requests and slave select (R252, R253) -/

theorem txDmaReq_eq (b : Block) : txDmaReq b = (b.ctrl2.getLsbD 1 && b.txe) :=
  congrArg (· && b.txe) (and_twoPow_ne_zero b.ctrl2 (i := 1) (by decide))

theorem rxDmaReq_eq (b : Block) : rxDmaReq b = (b.ctrl2.getLsbD 0 && b.rxne) :=
  congrArg (· && b.rxne) (and_twoPow_ne_zero b.ctrl2 (i := 0) (by decide))

theorem nssOutputEnable_eq (b : Block) : nssOutputEnable b = (b.ctrl2.getLsbD 2 && b.ctrl1.getLsbD 2) :=
  congrArg (· && mstr b.ctrl1) (and_twoPow_ne_zero b.ctrl2 (i := 2) (by decide))

/-- Settles O56: IRQ by its three sources, every other line by the one bit its mask tests. -/
theorem outputLines : Obligations.OutputLines := by
  intro b
  have hirq : irq b = (b.ctrl2.getLsbD 5 && (b.udr || b.crcerr || b.modf || b.ovr) || b.ctrl2.getLsbD 6 && b.rxne
      || b.ctrl2.getLsbD 7 && b.txe) := by
    rw [irq, intFlag_eq, intFlag_eq, intFlag_eq]; rfl
  exact ⟨intFlag_eq b, hirq, txDmaReq_eq b, rxDmaReq_eq b, fun _ => rfl, nssOutputEnable_eq b⟩

end Sys2Proof.Machine
end

