-- ==== Sys2Proof/Proofs/StartOfRun.lean ====
section
/-! The start of a run (70_reset_and_hazards.md R271, R273). -/

namespace Sys2Proof.Machine

/-- R271: at the start each instance has been reset once, with a draw of its own. -/
theorem exists_draw_blk_reset (n : Inst) : ∃ k, State.reset.blk n = Block.reset (Config.rxbufReset k) := by
  cases n with
  | i0 => exact ⟨0, rfl⟩
  | i1 => exact ⟨1, rfl⟩

/-- Settles O34: the interpreter's start values are those of `State.reset`; each block is a reset block. -/
theorem startOfRun : Obligations.StartOfRun := by
  refine ⟨rfl, rfl, rfl, rfl, rfl, fun n => ?_⟩
  obtain ⟨k, hblk⟩ := exists_draw_blk_reset n
  exact ⟨Config.rxbufReset k, hblk⟩

end Sys2Proof.Machine
end

