-- ==== Sys2Proof/Proofs/RoundTrip.lean ====
section
/-! The encoder and the decoder are each other's inverse (30_encoding.md Part B), so a command's words, and no others, mean it. -/

namespace Sys2Proof

/-! ### From a command to its words and back -/

/-- A first word whose opcode is not CONFIGURE's is read by the one-word decoder from the fields it was made of. -/
theorem decode_word {op : BitVec 6} (hop : (op == 0x02#6) = false) {n : Inst} {sel : BitVec 8} {imm : BitVec 16}
    {i : Instr} (hi : decodeOneWord { imm, sel, z := false, n, op } = some i) (rest : List CmdWord) :
    decode (word op n sel imm :: rest) = .ok (i, rest) := by
  rw [decode, isTwoWord_word, hop, unpack_word, hi]
  rfl

theorem decode_configure (n : Inst) (c : Configuration) (rest : List CmdWord) :
    decode (encode (.configure n c) ++ rest) = .ok (.configure n c, rest) := by
  have htwo : isTwoWord (word 0x02#6 n 0 (cfgOfFields c.toCtrl1Fields)) = true := by rw [isTwoWord_word]; rfl
  have hhead : configureHeadOk { imm := cfgOfFields c.toCtrl1Fields, sel := 0#8, z := false, n, op := 0x02#6 } = true := by
    simp [configureHeadOk, cfgOfFields_upper]
  have hpoly : polyWordOk (c.poly.setWidth 32) = true := by
    rw [polyWordOk_iff, BitVec.toNat_setWidth]
    omega
  have hlow : (c.poly.setWidth 32).extractLsb' 0 16 = c.poly := by
    ext i hi
    simp [hi, show i < 32 by omega]
  rw [encode, List.cons_append, decode_of_twoWord htwo, unpack_word]
  simp [decodeConfigure, hhead, hpoly, hlow, fieldsOfCfg_cfgOfFields]

/-- Settles O1: CONFIGURE by its two words, every other command by the row of its opcode. -/
theorem decodeOfEncode : Obligations.DecodeOfEncode := by
  intro i rest hwf
  cases i with
  | configure n c => exact decode_configure n c rest
  | reset | enable | disable | txdata | rxdata | ssiset | ssiclr | ssoeen | ssoedis | crcen | crcdis | crcnext | rdtxcrc
  | rdrxcrc | rdpoly | halt => exact decode_word rfl rfl rest
  | dmaen n x | dmadis n x | setframe n x | setdir n x | rdflag n x | clrflag n x | inten n x | intdis n x | rdint n x
  | clrint n x | busrd n x | buswr n x => cases x <;> exact decode_word rfl rfl rest
  | bz off | bnz off =>
    refine decode_word rfl ?_ rest
    simp [decodeOneWord, noInst, immForm, toInt_ofInt_of_fits hwf]

/-! ### From words to a command and back -/

theorem plainForm_eq_some {f : Fields} {i j : Instr} :
    plainForm f i = some j ↔ (f.sel = 0#8 ∧ f.imm = 0#16) ∧ i = j := by
  simp [plainForm]

theorem selForm_eq_some {α : Type} {f : Fields} {operand : BitVec 8 → Option α} {k : α → Instr} {j : Instr} :
    selForm f operand k = some j ↔ f.imm = 0#16 ∧ ∃ x, operand f.sel = some x ∧ k x = j := by
  simp [selForm]

theorem immForm_eq_some {f : Fields} {k : BitVec 16 → Instr} {j : Instr} :
    immForm f k = some j ↔ f.sel = 0#8 ∧ k f.imm = j := by
  simp [immForm]

theorem noInst_eq_some {f : Fields} {i : Option Instr} {j : Instr} :
    noInst f i = some j ↔ f.n = .i0 ∧ i = some j := by
  simp [noInst]

theorem offsetFits_toInt (x : BitVec 16) : offsetFits x.toInt = true := by
  have := BitVec.toInt_lt (x := x)
  have := BitVec.le_toInt x
  simp [offsetFits]
  omega

/-- A command decoded from fields with `z = false` means them: it is well-formed, and they make its word. -/
def Means (i : Instr) (f : Fields) : Prop :=
  i.wellFormed = true ∧ encode i = [word f.op f.n f.sel f.imm]

theorem means_of_plainForm {f : Fields} {i j : Instr} (h : plainForm f i = some j)
    (hi : i.wellFormed = true ∧ encode i = [word f.op f.n 0 0]) : Means j f := by
  obtain ⟨⟨hsel, himm⟩, rfl⟩ := plainForm_eq_some.1 h
  rw [Means, hsel, himm]
  exact hi

theorem means_of_selForm {α : Type} {f : Fields} {operand : BitVec 8 → Option α} {k : α → Instr} {j : Instr}
    (h : selForm f operand k = some j)
    (hk : ∀ x, operand f.sel = some x → (k x).wellFormed = true ∧ encode (k x) = [word f.op f.n f.sel 0]) :
    Means j f := by
  obtain ⟨himm, x, hx, rfl⟩ := selForm_eq_some.1 h
  rw [Means, himm]
  exact hk x hx

theorem means_of_immForm {f : Fields} {k : BitVec 16 → Instr} {j : Instr} (h : immForm f k = some j)
    (hk : (k f.imm).wellFormed = true ∧ encode (k f.imm) = [word f.op f.n 0 f.imm]) : Means j f := by
  obtain ⟨hsel, rfl⟩ := immForm_eq_some.1 h
  rw [Means, hsel]
  exact hk

/-- A one-word command means the fields it is read from. -/
theorem means_of_decodeOneWord {f : Fields} {i : Instr} (hz : f.z = false) (h : decodeOneWord f = some i) :
    Means i f := by
  rw [decodeOneWord, if_neg (by simp [hz])] at h
  split at h
  case h_1 hop | h_2 hop | h_3 hop | h_7 hop | h_8 hop | h_9 hop | h_10 hop | h_11 hop | h_14 hop | h_15 hop | h_16 hop
    | h_17 hop | h_18 hop | h_19 hop =>
    exact means_of_plainForm h (by rw [hop]; exact ⟨rfl, rfl⟩)
  case h_4 hop | h_5 hop =>
    exact means_of_selForm h fun x hx => by rw [hop, ← selOfChannel_of_some hx]; exact ⟨rfl, rfl⟩
  case h_12 hop => exact means_of_selForm h fun x hx => by rw [hop, ← selOfFrameLen_of_some hx]; exact ⟨rfl, rfl⟩
  case h_13 hop => exact means_of_selForm h fun x hx => by rw [hop, ← selOfDirection_of_some hx]; exact ⟨rfl, rfl⟩
  case h_20 hop | h_24 hop =>
    exact means_of_selForm h fun x hx => by rw [hop, ← selOfFlag_of_some hx]; exact ⟨rfl, rfl⟩
  case h_21 hop | h_22 hop | h_23 hop | h_25 hop =>
    exact means_of_selForm h fun x hx => by rw [hop, ← selOfSource_of_some hx]; exact ⟨rfl, rfl⟩
  case h_26 hop => exact means_of_selForm h fun x hx => by rw [hop, ← selOfReg_of_some hx]; exact ⟨rfl, rfl⟩
  case h_6 hop => exact means_of_immForm h (by rw [hop]; exact ⟨rfl, rfl⟩)
  case h_27 hop =>
    obtain ⟨r, hr, rfl⟩ := Option.map_eq_some_iff.1 h
    rw [Means, hop, ← selOfReg_of_some hr]
    exact ⟨rfl, rfl⟩
  case h_28 hop | h_29 hop =>
    obtain ⟨hn, h⟩ := noInst_eq_some.1 h
    exact means_of_immForm h ⟨offsetFits_toInt _, by rw [hop, hn, encode, BitVec.ofInt_toInt]⟩
  case h_30 hop =>
    obtain ⟨hn, h⟩ := noInst_eq_some.1 h
    exact means_of_plainForm h (by rw [hop, hn]; exact ⟨rfl, rfl⟩)
  case h_31 => cases h

theorem z_of_decodeOneWord {f : Fields} {i : Instr} (h : decodeOneWord f = some i) : f.z = false := by
  cases hz : f.z with
  | false => rfl
  | true => simp [decodeOneWord, hz] at h

/-- The word made of a word's own fields is that word, where Z is 0. -/
theorem word_unpack {w : CmdWord} (hz : (unpack w).z = false) :
    word (unpack w).op (unpack w).n (unpack w).sel (unpack w).imm = w := by
  rw [word, ← hz]
  exact pack_unpack w

theorem encode_of_decode_oneWord {w : CmdWord} {i : Instr} (h : decodeOneWord (unpack w) = some i) :
    i.wellFormed = true ∧ encode i = [w] := by
  have hz := z_of_decodeOneWord h
  obtain ⟨hwf, henc⟩ := means_of_decodeOneWord hz h
  exact ⟨hwf, by rw [henc, word_unpack hz]⟩

/-- What a CONFIGURE is decoded from: a legal first word, and a second word that is zero above its polynomial. -/
theorem decodeConfigure_eq_ok {f : Fields} {ws rest : List CmdWord} {i : Instr}
    (h : decodeConfigure f ws = .ok (i, rest)) :
    configureHeadOk f = true ∧ ∃ w2, ws = w2 :: rest ∧ polyWordOk w2 = true
      ∧ i = .configure f.n { toCtrl1Fields := fieldsOfCfg f.imm, poly := w2.extractLsb' 0 16 } := by
  unfold decodeConfigure at h
  split at h
  case isFalse => cases h
  case isTrue hhead =>
    cases ws with
    | nil => cases h
    | cons w2 ws =>
      cases hpoly : polyWordOk w2 <;> simp [hpoly] at h
      obtain ⟨rfl, rfl⟩ := h
      exact ⟨hhead, w2, rfl, hpoly, rfl⟩

theorem setWidth_extractLsb'_of_polyWordOk {w : CmdWord} (h : polyWordOk w = true) :
    (w.extractLsb' 0 16).setWidth 32 = w := by
  have hlt := (polyWordOk_iff w).1 h
  apply BitVec.eq_of_toNat_eq
  simp [BitVec.extractLsb'_toNat]
  omega

theorem word_of_configureHeadOk {w : CmdWord} (htwo : isTwoWord w = true) (h : configureHeadOk (unpack w) = true) :
    word 0x02#6 (unpack w).n 0 (cfgOfFields (fieldsOfCfg (unpack w).imm)) = w := by
  have hop : (unpack w).op = 0x02#6 := beq_iff_eq.1 htwo
  simp only [configureHeadOk, Bool.and_eq_true, Bool.not_eq_true', beq_iff_eq] at h
  obtain ⟨⟨hz, hsel⟩, hcfg⟩ := h
  rw [cfgOfFields_fieldsOfCfg hcfg, ← hop, show (0 : BitVec 8) = (unpack w).sel from hsel.symm, word_unpack hz]

/-- Settles O2: a CONFIGURE is written back word by word; of every other command the word's fields are its own. -/
theorem encodeOfDecode : Obligations.EncodeOfDecode := by
  intro ws i rest h
  cases ws with
  | nil => cases h
  | cons w ws =>
    cases htwo : isTwoWord w with
    | true =>
      rw [decode_of_twoWord htwo] at h
      obtain ⟨hhead, w2, rfl, hpoly, rfl⟩ := decodeConfigure_eq_ok h
      refine ⟨rfl, ?_⟩
      rw [encode, word_of_configureHeadOk htwo hhead, setWidth_extractLsb'_of_polyWordOk hpoly]
      rfl
    | false =>
      cases hi : decodeOneWord (unpack w) <;> simp [decode, htwo, hi] at h
      obtain ⟨rfl, rfl⟩ := h
      obtain ⟨hwf, henc⟩ := encode_of_decode_oneWord hi
      exact ⟨hwf, by rw [henc]; rfl⟩

/-! ### Lengths (R87) -/

/-- Decoding takes one word from the front, or two for a CONFIGURE. -/
theorem rest_of_decode {w : CmdWord} {ws rest : List CmdWord} {i : Instr} (h : decode (w :: ws) = .ok (i, rest)) :
    rest = ws.drop (if isTwoWord w then 1 else 0) := by
  cases htwo : isTwoWord w with
  | true =>
    rw [decode_of_twoWord htwo] at h
    obtain ⟨_, w2, rfl, _, _⟩ := decodeConfigure_eq_ok h
    rfl
  | false =>
    cases hi : decodeOneWord (unpack w) <;> simp [decode, htwo, hi] at h
    exact h.2.symm

/-- Without a second word, R91 looks at CONFIGURE's first word alone. -/
theorem illegal_nil_iff {w : CmdWord} (htwo : isTwoWord w = true) :
    Claims.Illegal w [] ↔ configureHeadOk (unpack w) = false := by
  have hop : (unpack w).op = 0x02#6 := beq_iff_eq.1 htwo
  rw [illegal_iff, ← configureHeadOk_iff_row hop]
  simp

/-- Settles O4: the first clause is the decoder's own length rule; of a lone CONFIGURE the first word is looked at first. -/
theorem commandLengthByOpcode : Obligations.CommandLengthByOpcode := by
  constructor
  · intro w ws i rest h
    rw [rest_of_decode h]
    simp only [isTwoWord_iff]
  · intro w hop
    have htwo : isTwoWord w = true := (isTwoWord_iff w).2 hop
    rw [decode_of_twoWord htwo, illegal_nil_iff htwo]
    cases hhead : configureHeadOk (unpack w) <;> simp [decodeConfigure, hhead]

/-- Settles O5: each accepted word is its command's encoding; the two branch words are decoded as they stand. -/
theorem exampleWordsDecode : Obligations.ExampleWordsDecode :=
  ⟨decodeOfEncode (.reset .i1) [] rfl, decodeOfEncode (.configure .i0 Machine.defaultConfig) [] rfl,
    decodeOfEncode (.dmaen .i0 .tx) [] rfl, decodeOfEncode (.txdata .i1 0xBEEF) [] rfl,
    decodeOfEncode (.setframe .i0 .bits16) [] rfl, decodeOfEncode (.setdir .i1 .rx) [] rfl,
    decodeOfEncode (.rdflag .i0 .ovr) [] rfl, decodeOfEncode (.inten .i0 .txe) [] rfl,
    decodeOfEncode (.busrd .i0 .rxcrc) [] rfl, decodeOfEncode (.buswr .i0 .ctrl2 0xFFFF) [] rfl,
    by decide, by decide⟩

end Sys2Proof
end

