-- ==== Sys2Proof/Proofs/ConfigurationFields.lean ====
section
/-! A Configuration's fields and the bits of CTRL1 that hold them (30_encoding.md R76 to R78): `decoded` reads each field where `encoded`
writes it. -/

namespace Sys2Proof.Machine

/-! ### Where each field is written -/

section
variable (i : Nat)

theorem getLsbD_twoPow_or_zero (v : Bool) (k : Nat) (hk : k < 16) :
    (if v then BitVec.twoPow 16 k else 0#16).getLsbD i = (v && decide (i = k)) := by
  cases v <;> simp [BitVec.getLsbD_twoPow, hk, eq_comm]

theorem getLsbD_encRole (r : Role) : (encRole r).getLsbD i = (bitOfRole r && decide (i = 2)) := by
  rw [← getLsbD_twoPow_or_zero i _ 2 (by decide)]; cases r <;> rfl
theorem getLsbD_encFrame (l : FrameLen) : (encFrame l).getLsbD i = (bitOfFrame l && decide (i = 11)) := by
  rw [← getLsbD_twoPow_or_zero i _ 11 (by decide)]; cases l <;> rfl
theorem getLsbD_encCpol (p : Polarity) : (encCpol p).getLsbD i = (bitOfCpol p && decide (i = 1)) := by
  rw [← getLsbD_twoPow_or_zero i _ 1 (by decide)]; cases p <;> rfl
theorem getLsbD_encCpha (p : Phase) : (encCpha p).getLsbD i = (bitOfCpha p && decide (i = 0)) := by
  rw [← getLsbD_twoPow_or_zero i _ 0 (by decide)]; cases p <;> rfl
theorem getLsbD_encNss (m : SelectMode) : (encNss m).getLsbD i = (bitOfNss m && decide (i = 9)) := by
  rw [← getLsbD_twoPow_or_zero i _ 9 (by decide)]; cases m <;> rfl
theorem getLsbD_encOrder (o : BitOrder) : (encOrder o).getLsbD i = (bitOfOrder o && decide (i = 7)) := by
  rw [← getLsbD_twoPow_or_zero i _ 7 (by decide)]; cases o <;> rfl
theorem getLsbD_encBaud (k : BitVec 3) : (encBaud k).getLsbD i = (decide (3 ≤ i ∧ i < 6) && k.getLsbD (i - 3)) := by
  have hlow : 6 ≤ i → k.getLsbD (i - 3) = false := fun h => k.getLsbD_of_ge _ (by omega)
  by_cases h3 : i < 3
  · simp [encBaud, h3]
  · by_cases h6 : i < 6
    · simp [encBaud, h3, h6, show i < 16 by omega, show 3 ≤ i by omega]
    · simp [encBaud, h3, h6, hlow (by omega)]

/-- The direction mode's three bits: BDM, BDOE, RXONLY. -/
theorem getLsbD_encDir (d : DirMode) : (encDir d).getLsbD i
    = (decide (d = .halfDuplexRx ∨ d = .halfDuplexTx) && decide (i = 15)
    || decide (d = .halfDuplexTx) && decide (i = 14) || decide (d = .receiveOnly) && decide (i = 10)) := by
  rw [← getLsbD_twoPow_or_zero i _ 15 (by decide), ← getLsbD_twoPow_or_zero i _ 14 (by decide),
    ← getLsbD_twoPow_or_zero i _ 10 (by decide), ← BitVec.getLsbD_or, ← BitVec.getLsbD_or]
  cases d <;> rfl

theorem getLsbD_encoded (c : Ctrl1Fields) : (encoded c).getLsbD i = ((encDir c.dir).getLsbD i
    || bitOfRole c.role && decide (i = 2) || bitOfFrame c.frame && decide (i = 11) || bitOfCpol c.cpol && decide (i = 1)
    || bitOfCpha c.cpha && decide (i = 0) || bitOfNss c.nss && decide (i = 9)
    || decide (3 ≤ i ∧ i < 6) && c.baud.getLsbD (i - 3) || bitOfOrder c.order && decide (i = 7)) := by
  simp only [encoded, BitVec.getLsbD_or, getLsbD_encRole, getLsbD_encFrame, getLsbD_encCpol, getLsbD_encCpha,
    getLsbD_encNss, getLsbD_encBaud, getLsbD_encOrder]
end

/-! ### Reading them back (R78) -/

/-- The three bits name a mode exactly when they are the mode's. -/
theorem decodedDir_eq_some {bdm bdoe rxonly : Bool} {d : DirMode} : decodedDir bdm bdoe rxonly = some d
    ↔ (bdm, bdoe, rxonly) = ((encDir d).getLsbD 15, (encDir d).getLsbD 14, (encDir d).getLsbD 10) := by
  cases bdm <;> cases bdoe <;> cases rxonly <;> cases d <;> decide

theorem decodedDir_eq_none {bdm bdoe rxonly : Bool} : decodedDir bdm bdoe rxonly = none
    ↔ (bdm, bdoe, rxonly) ∉ [(false, false, false), (true, false, false), (true, true, false), (false, false, true)] :=
  by
  cases bdm <;> cases bdoe <;> cases rxonly <;> decide

theorem decoded_eq_some {v : Word} {c : Ctrl1Fields} : decoded v = some c ↔
    (v.getLsbD 15, v.getLsbD 14, v.getLsbD 10)
        = ((encDir c.dir).getLsbD 15, (encDir c.dir).getLsbD 14, (encDir c.dir).getLsbD 10)
      ∧ c = { dir := c.dir, role := roleOfBit (v.getLsbD 2), frame := frameOfBit (v.getLsbD 11)
              cpol := cpolOfBit (v.getLsbD 1), cpha := cphaOfBit (v.getLsbD 0), nss := nssOfBit (v.getLsbD 9)
              baud := v.extractLsb' 3 3, order := orderOfBit (v.getLsbD 7) } := by
  rw [decoded, Option.map_eq_some_iff, ← decodedDir_eq_some]
  constructor
  · rintro ⟨d, hd, rfl⟩
    exact ⟨hd, rfl⟩
  · rintro ⟨hd, hc⟩
    exact ⟨_, hd, hc.symm⟩

theorem extractLsb'_encoded (c : Ctrl1Fields) : (encoded c).extractLsb' 3 3 = c.baud := by
  apply BitVec.eq_of_getLsbD_eq
  intro i hi
  rw [BitVec.getLsbD_extractLsb', getLsbD_encoded, getLsbD_encDir]
  interval_cases i <;> simp

theorem decoded_encoded (c : Ctrl1Fields) : decoded (encoded c) = some c := by
  rw [decoded_eq_some, extractLsb'_encoded]
  simp only [getLsbD_encoded, getLsbD_encDir]
  simp

/-- `decoded` reads the CFG_MASK bits alone. -/
theorem decoded_and_mask (v : Word) : decoded (v &&& CFG_MASK) = decoded v := by
  have hbaud : (v &&& CFG_MASK).extractLsb' 3 3 = v.extractLsb' 3 3 := by
    apply BitVec.eq_of_getLsbD_eq
    intro i hi
    simp only [BitVec.getLsbD_extractLsb', BitVec.getLsbD_and]
    interval_cases i <;> simp [CFG_MASK]
  simp only [decoded, BitVec.getLsbD_and, hbaud]
  simp [CFG_MASK]

theorem encoded_of_decoded {v : Word} {c : Ctrl1Fields} (h : decoded v = some c) : encoded c = v &&& CFG_MASK := by
  obtain ⟨hdir, hc⟩ := decoded_eq_some.1 h
  simp only [getLsbD_encDir, Prod.mk.injEq] at hdir
  obtain ⟨h15, h14, h10⟩ := hdir
  apply BitVec.eq_of_getLsbD_eq
  intro i hi
  rw [getLsbD_encoded, getLsbD_encDir, BitVec.getLsbD_and, hc]
  interval_cases i <;> simp [CFG_MASK, -BitVec.getLsbD_eq_getElem, h15, h14, h10]

theorem divisor_of_decoded {v : Word} {c : Ctrl1Fields} (h : decoded v = some c) :
    divisor c.baud = 2 ^ (v.toNat / 8 % 8 + 1) := by
  obtain ⟨_, hc⟩ := decoded_eq_some.1 h
  rw [hc, divisor, BitVec.extractLsb'_toNat, Nat.shiftRight_eq_div_pow]

/-- Settles O9: under CFG_MASK only `encoded c` is left, and there each field is read where it was written. -/
theorem decodedInvertsEncoded : Obligations.DecodedInvertsEncoded := by
  refine ⟨fun c x => ?_, fun v => (decoded_and_mask v).symm, 
    fun v c h => ⟨encoded_of_decoded h, divisor_of_decoded h⟩, fun v => ?_⟩
  · have hmask : (x &&& ~~~(0xCEBF : Word) ||| encoded c) &&& CFG_MASK = encoded c := by
      rw [BitVec.and_or_distrib_right, within_cfgMask_encoded, BitVec.and_assoc,
        show ~~~(0xCEBF : Word) &&& CFG_MASK = 0#16 from rfl, BitVec.and_zero, BitVec.zero_or]
    rw [← decoded_and_mask, hmask, decoded_encoded]
  · rw [decoded, Option.map_eq_none_iff, decodedDir_eq_none]

end Sys2Proof.Machine
end

