-- ==== Sys2Proof/Proofs/Reachable.lean ====
section
/-! What every reachable state is: each step has an answer (60_exceptions.md R230), and the block invariant, true at the start and kept
by every operation of a step, holds of it (R249, 10_state.md R28). -/

namespace Sys2Proof.Machine

/-! ### Every step has an answer -/

theorem keptByOps_true : KeptByOps fun _ => True where
  turn _ := trivial
  read _ _ _ := trivial
  write _ _ _ _ := trivial
  report _ _ := trivial
  jump _ _ := trivial
  refuse _ _ := trivial
  halt _ := trivial
  reset _ _ := trivial
  mark _ _ := trivial
  unqueue _ _ := trivial

/-- Settles O26: every command is made of operations that answer, and a step is one of them or a command. -/
theorem nothingFaults : Obligations.NothingFaults := by
  constructor
  · intro i s
    obtain ⟨t, hexec, _⟩ := keptByOps_true.exec_next i (s := s) trivial
    exact ⟨t, hexec⟩
  · intro s
    obtain ⟨t, hstep, _⟩ := keptByOps_true.step_next (s := s) trivial
    exact ⟨t, hstep⟩

/-! ### The block invariant -/

theorem resetPulse_inv {s : State} (h : s.Inv) (n : Inst) : (resetPulse n s).Inv := by
  have hset : ((engineTurn s).setBlk n (Block.reset (Config.rxbufReset s.draws))).Inv :=
    setBlk_inv (engineTurn_inv h) n (Block.reset_inv _)
  exact hset

/-- CFG_DONE is no part of the invariant. -/
theorem markConfigured_inv {s : State} (h : s.Inv) (n : Inst) : (markConfigured n s).Inv := by
  have hblk : (s.blk n).Inv := State.inv_iff.1 h n
  exact setBlk_inv h n hblk

theorem keptByOps_inv : KeptByOps State.Inv where
  turn := engineTurn_inv
  read n r hs := busRead_inv hs n r
  write n r v hs := busWrite_inv hs n r v
  report _ hs := hs
  jump _ hs := hs
  refuse _ hs := hs
  halt hs := hs
  reset n hs := resetPulse_inv hs n
  mark n hs := markConfigured_inv hs n
  unqueue _ hs := hs

/-- Settles O20: the invariant is a property that every operation of a step keeps. -/
theorem stepKeepsBlocksGood : Obligations.StepKeepsBlocksGood :=
  fun _ _ hs hstep => keptByOps_inv.of_step hstep hs

theorem reset_inv : State.reset.Inv := ⟨Block.reset_inv _, Block.reset_inv _⟩

/-- Settles O19: both blocks are reset blocks, and the pc is at the end of the empty stream. -/
theorem startMeetsInvariants : Obligations.StartMeetsInvariants := ⟨reset_inv, rfl⟩

/-- What every step of a machine keeps holds at the end of a run from a state that has it. -/
theorem run_keeps {M : Host.Core} {P : M.State → Prop} (hP : ∀ s t, P s → M.step s = .next t → P t) {k : Nat}
    {s t : M.State} (hs : P s) (hrun : M.run k s = .next t) : P t := by
  induction k generalizing s with
  | zero =>
    obtain rfl : s = t := Host.Outcome.next.inj hrun
    exact hs
  | succ k ih =>
    rw [Host.Core.run] at hrun
    split at hrun
    case h_1 s' hstep => exact ih (hP s s' hs hstep) hrun
    case h_2 | h_3 => cases hrun

/-- Settles O21: a start with any stream, schedule and requests meets the block invariant, so every state of its runs does. -/
theorem armedOnlyWithFlagSet : Obligations.ArmedOnlyWithFlagSet := by
  intro prog sched port k t hrun n
  have hstart : State.Inv { State.reset with prog := prog, sched := sched, port := port } := reset_inv
  obtain ⟨hovr, hmodf, _⟩ := State.inv_iff.1 (run_keeps (M := core) stepKeepsBlocksGood hstart hrun) n
  exact ⟨hovr, hmodf⟩

end Sys2Proof.Machine
end

