-- ==== Sys2Proof/Proofs/Accesses.lean ====
section
/-! Bus reads of a block, effect by effect (40_register_access.md R110, R111, R116), and the clear state machine by its table of
states (60_exceptions.md R248). -/

namespace Sys2Proof.Machine

theorem blockRead_of_other {r : Reg} (hkind : readKind r = .other) (b : Block) :
    blockRead Config.seqIntervening r b = Claims.afterOther (readEffect r b) := by
  rw [blockRead, hkind, clearStep_other]; rfl

theorem readValue_eq (r : Reg) (b : Block) : readValue r b = Claims.readOf r b := by cases r <;> rfl

theorem blockRead_eq (r : Reg) (b : Block) : blockRead Config.seqIntervening r b = Claims.afterRead r b := by
  cases r with
  | ctrl1 => exact clearStep_ctrl1Read ..
  | sts => exact clearStep_stsRead ..
  | data => exact clearStep_dataRead ..
  | ctrl2 | crcpoly | rxcrc | txcrc => exact blockRead_of_other rfl b

/-- Settles O10: the three reads with a clear step of their own are those of CTRL1, STS and DATA. -/
theorem busReadOfEachRegister : Obligations.BusReadOfEachRegister :=
  fun r b => ⟨readValue_eq r b, blockRead_eq r b⟩

theorem blockWrite_eq (r : Reg) (v : Word) (b : Block) :
    blockWrite Config.seqIntervening r v b = Claims.afterWrite r v b := busWriteOfEachRegister r v b

/-! ### The table of states (R248) -/

theorem clearStep_ovrRow (p : SeqIntervening) (k : AccessKind) {b : Block} (h : b.ovrArm = true → b.ovr = true) :
    ((clearStep p k b).ovr, (clearStep p k b).ovrArm) = Claims.ovrRow p k (b.ovr, b.ovrArm) := by
  cases hovr : b.ovr with
  | false =>
    have harm : b.ovrArm = false := by simpa [hovr] using h
    cases k <;> simp [clearStep, clearOverrun, clearUnderrun, clearModeFault, Claims.ovrRow, hovr, harm]
  | true =>
    cases k with
    | stsRead => cases harm : b.ovrArm <;> simp [clearStep_stsRead, Claims.ovrRow, hovr, harm]
    | dataRead => cases harm : b.ovrArm <;> simp [clearStep_dataRead, Claims.ovrRow, hovr]
    | ctrl1Read | ctrl1Write | other =>
      cases harm : b.ovrArm <;> cases p <;>
        simp [clearStep, clearOverrun, clearUnderrun, clearModeFault, keepsArmed, Claims.ovrRow, hovr, harm]

theorem clearStep_modfRow (p : SeqIntervening) (k : AccessKind) {b : Block} (h : b.modfArm = true → b.modf = true) :
    ((clearStep p k b).modf, (clearStep p k b).modfArm) = Claims.modfRow p k (b.modf, b.modfArm) := by
  cases hmodf : b.modf with
  | false =>
    have harm : b.modfArm = false := by simpa [hmodf] using h
    cases k <;> simp [clearStep, clearOverrun, clearUnderrun, clearModeFault, Claims.modfRow, hmodf, harm]
  | true =>
    cases k with
    | ctrl1Write => cases harm : b.modfArm <;> simp [clearStep_ctrl1Write, Claims.modfRow, hmodf, harm]
    | stsRead => cases harm : b.modfArm <;> simp [clearStep_stsRead, Claims.modfRow, hmodf]
    | ctrl1Read => cases harm : b.modfArm <;> simp [clearStep_ctrl1Read, Claims.modfRow, hmodf, harm]
    | dataRead | other =>
      cases harm : b.modfArm <;> cases p <;>
        simp [clearStep, clearOverrun, clearUnderrun, clearModeFault, keepsArmed, Claims.modfRow, hmodf, harm]

theorem udr_clearStep (p : SeqIntervening) (k : AccessKind) (b : Block) :
    (clearStep p k b).udr = (b.udr && k != .stsRead) := by
  cases k <;> simp [clearStep, clearOverrun, clearUnderrun, clearModeFault]

/-- Settles O13: the rows of OVR, MODF and UDR by the state and the access, then the engines' events, what an STS read shows, and
reset. -/
theorem clearMachineTable : Obligations.ClearMachineTable := by
  refine ⟨fun p k b => clearStep_ovrRow p k, fun p k b => clearStep_modfRow p k, udr_clearStep,
    fun f u b => ⟨rfl, rfl, rfl⟩, fun p b => ⟨?_, ?_, rfl⟩, fun v => ⟨rfl, rfl, rfl, rfl, rfl⟩⟩
  · exact getLsbD_stsval b .ovr
  · exact getLsbD_stsval b .udr

end Sys2Proof.Machine
end

