-- ==== Sys2Proof/Proofs/Engines.lean ====
section
/-! The engines: what each event changes (60_exceptions.md R238, R241), a turn event by event, and the endless schedule (20_memory.md
R60; log 1). -/

namespace Sys2Proof.Machine

/-! ### Events -/

/-- R238: only a frame received in 8-bit mode on a chip that zeroes its upper byte is masked. -/
theorem rxFrame_eq (u : Rx8Upper) (long : Bool) (d : Word) :
    rxFrame u long d = if u = .zero ∧ long = false then d &&& 0x00FF else d := by
  cases u <;> cases long <;> rfl

theorem modfCtrl1_eq (f : ModfForce) (ctrl1 : Word) :
    modfCtrl1 f ctrl1 = if f = .clearSpeMstr then ctrl1 &&& 0xFFBB else ctrl1 := by
  cases f <;> rfl

/-- Settles O16: a received frame and a mode fault depend on a parameter, every other event is the update it names. -/
theorem engineEventEffects : Obligations.EngineEventEffects := by
  refine fun f u b => ⟨fun d => ?_, rfl, fun _ => rfl, fun _ => rfl, rfl, rfl, rfl, ?_, rfl, fun _ => rfl, fun _ => rfl⟩
  · rw [engineEvent, rxFrame_eq]; rfl
  · rw [engineEvent, modfCtrl1_eq]

/-! ### Turns -/

theorem engineTurn_of_head_nil {s : State} (h : s.sched.head = []) : engineTurn s = { s with sched := s.sched.rest } := by
  simp [engineTurn, h]

/-- A turn is its first event at that event's own block, and then the turn of the events after it. -/
theorem engineTurn_of_head_cons {s : State} {n : Inst} {e : EngineEvent} {es : Turn} (h : s.sched.head = (n, e) :: es) :
    engineTurn s = engineTurn { s.setBlk n (engineEvent Config.modfForce Config.rx8Upper e (s.blk n)) with
      sched := { s.sched.rest with ahead := es :: s.sched.rest.ahead } } := by
  rw [engineTurn, h]
  cases n <;> rfl

/-! ### The schedule -/

section
variable (ahead cycle : List Turn) (d k : Nat)

/-- One turn into a cycle, the rest of it is ahead, and the cycle comes again after that. -/
theorem getD_tail_or_cycle : (if k < cycle.tail.length then cycle.tail.getD k []
    else cycle.getD ((k - cycle.tail.length) % cycle.length) []) = cycle.getD ((k + 1) % cycle.length) [] := by
  cases cycle with
  | nil => simp
  | cons turn cycle =>
    split
    case isTrue hk =>
      rw [List.tail_cons] at hk ⊢
      rw [List.length_cons, Nat.mod_eq_of_lt (by omega), List.getD_cons_succ]
    case isFalse hk =>
      rw [List.tail_cons] at hk ⊢
      rw [List.length_cons, show k + 1 = (k - cycle.length) + (cycle.length + 1) by omega, Nat.add_mod_right]

theorem head_drop_repeating : (Schedule.drop k { ahead, later := .repeating cycle, drawn := d }).head
    = if k < ahead.length then ahead.getD k [] else cycle.getD ((k - ahead.length) % cycle.length) [] := by
  induction k generalizing ahead with
  | zero => cases ahead <;> cases cycle <;> simp [Schedule.head]
  | succ k ih =>
    rw [Schedule.drop_succ, Schedule.rest]
    cases ahead with
    | nil => exact (ih cycle.tail).trans (getD_tail_or_cycle cycle k)
    | cons turn ahead => simpa using ih ahead

theorem head_drop_free : (Schedule.drop k { ahead, later := .free, drawn := d }).head
    = if k < ahead.length then ahead.getD k [] else Config.engineTurns (d + (k - ahead.length)) := by
  induction k generalizing ahead d with
  | zero => cases ahead <;> simp [Schedule.head]
  | succ k ih =>
    rw [Schedule.drop_succ, Schedule.rest]
    cases ahead with
    | nil => simpa [Nat.add_comm, Nat.add_left_comm] using ih [] (d + 1)
    | cons turn ahead => simpa using ih ahead d
end

/-- Settles O17: the accesses register by register, the turn by its first event, the schedule by induction on how far it has run. -/
theorem engineTurnAppliesItsEvents : Obligations.EngineTurnAppliesItsEvents := by
  refine ⟨fun n r v s => ⟨?_, ?_⟩, fun s => engineTurn_of_head_nil, fun s n e es => engineTurn_of_head_cons,
    fun ahead cycle d k => ⟨head_drop_repeating ahead cycle d k, head_drop_free ahead d k⟩⟩
  · rw [busRead, readValue_eq, blockRead_eq]
  · rw [busWrite, blockWrite_eq]

end Sys2Proof.Machine
end

