-- ==== Sys2Proof/Proofs/Boundaries.lean ====
section
/-! Command boundaries (42_control.md R190): the indices that decoding from the start reaches, so the place after a command that decodes
is one; and which of them depend on the words before them only. -/

namespace Sys2Proof

open Claims

theorem commandLength_eq (w : CmdWord) : commandLength w = if w.toNat % 64 = 2 then 2 else 1 := by
  simp only [commandLength, isTwoWord_iff]

theorem boundaryFrom_zero (skip : Bool) (ws : List CmdWord) : boundaryFrom skip ws 0 = !skip := by
  cases skip <;> cases ws <;> rfl

theorem boundaryFrom_skip_cons_succ (w : CmdWord) (ws : List CmdWord) (k : Nat) :
    boundaryFrom true (w :: ws) (k + 1) = boundaryFrom false ws k := rfl

theorem boundaryFrom_cons_succ (w : CmdWord) (ws : List CmdWord) (k : Nat) :
    boundaryFrom false (w :: ws) (k + 1) = boundaryFrom (isTwoWord w) ws k := rfl

/-- A boundary with a whole command at it has a boundary after that command. -/
theorem isBoundary_add_commandLength {prog : List CmdWord} {k : Nat} {w : CmdWord} (hk : isBoundary prog k = true)
    (hw : prog[k]? = some w) (hfit : k + commandLength w ≤ prog.length) :
    isBoundary prog (k + commandLength w) = true := by
  obtain ⟨hlt, hget⟩ := List.getElem?_eq_some_iff.1 hw
  rw [isBoundary, boundaryFrom_add hk, List.drop_eq_getElem_cons hlt, hget]
  rw [commandLength] at hfit ⊢
  cases htwo : isTwoWord w with
  | false => rw [if_neg (by simp), boundaryFrom_cons_succ, htwo, boundaryFrom_zero]; rfl
  | true =>
    rw [htwo] at hfit
    rw [List.drop_eq_getElem_cons (show k + 1 < prog.length from hfit)]
    rw [if_pos rfl, boundaryFrom_cons_succ, htwo, boundaryFrom_skip_cons_succ, boundaryFrom_zero]; rfl

theorem isBoundary_of_reached {prog : List CmdWord} {k : Nat} (h : Reached prog k) : isBoundary prog k = true := by
  induction h with
  | start => exact isBoundary_zero prog
  | next k w _ hw hfit ih =>
    rw [← commandLength_eq] at hfit ⊢
    exact isBoundary_add_commandLength ih hw hfit

/-- A boundary of the words from a reached index on is reached. -/
theorem reached_add {prog : List CmdWord} {k m : Nat} (hk : Reached prog k)
    (hm : boundaryFrom false (prog.drop k) m = true) : Reached prog (k + m) := by
  induction m using Nat.strongRecOn generalizing k with
  | ind m ih =>
    cases m with
    | zero => exact hk
    | succ m =>
      have hlt : k + (m + 1) ≤ prog.length := by
        have := le_length_of_boundaryFrom hm
        rw [List.length_drop] at this
        omega
      have hw : prog[k]? = some prog[k] := List.getElem?_eq_getElem (by omega)
      have hnext := Reached.next k prog[k] hk hw
      rw [← commandLength_eq, commandLength] at hnext
      rw [List.drop_eq_getElem_cons (by omega), boundaryFrom_cons_succ] at hm
      cases htwo : isTwoWord prog[k] with
      | false =>
        rw [htwo] at hm hnext
        rw [Nat.add_comm m 1, ← Nat.add_assoc]
        exact ih m (by omega) (hnext (by simp; omega)) hm
      | true =>
        rw [htwo] at hm hnext
        cases m with
        | zero => simp [boundaryFrom_zero] at hm
        | succ m =>
          rw [List.drop_eq_getElem_cons (by omega), boundaryFrom_skip_cons_succ] at hm
          rw [show k + (m + 1 + 1) = k + 2 + m by omega]
          exact ih m (by omega) (hnext (by simp; omega)) hm

/-- Settles O6: a boundary is reached from index 0, and every command of the way keeps to the boundaries. -/
theorem boundariesAreTheReachedIndices : Obligations.BoundariesAreTheReachedIndices := by
  refine fun prog k => ⟨fun h => ?_, isBoundary_of_reached⟩
  rw [← Nat.zero_add k]
  exact reached_add .start h

/-! ### The place after a command -/

theorem le_length_of_isBoundary {prog : List CmdWord} {k : Nat} (h : isBoundary prog k = true) : k ≤ prog.length :=
  le_length_of_boundaryFrom h

/-- A command's first word has the command's length in its OP (R87). -/
theorem length_encode_eq (i : Instr) {w : CmdWord} {ws : List CmdWord} (h : encode i = w :: ws) :
    (encode i).length = commandLength w := by
  have of_statement (hi : Laws.EncodedLength.Statement i) : (encode i).length = commandLength w := by
    obtain ⟨w', ws', henc, hlen⟩ := hi
    obtain ⟨rfl, -⟩ := List.cons.inj (h.symm.trans henc)
    exact hlen
  apply of_statement
  cases i with
  | configure n c => exact Laws.EncodedLength.configure n c
  | _ => exact Laws.EncodedLength.of_word rfl rfl

/-- The place after a command that decodes at a boundary is a boundary. -/
theorem isBoundary_after_decode {prog : List CmdWord} {k : Nat} {i : Instr} {rest : List CmdWord}
    (hk : isBoundary prog k = true) (hi : decode (prog.drop k) = .ok (i, rest)) :
    isBoundary prog (k + (encode i).length) = true := by
  obtain ⟨-, henc⟩ := encodeOfDecode _ _ _ hi
  have hfit : (encode i).length ≤ prog.length - k := by
    rw [← List.length_drop, ← henc, List.length_append]; omega
  have hle := le_length_of_isBoundary hk
  cases hwords : encode i with
  | nil => simpa using hk
  | cons w ws =>
    have hw : prog[k]? = some w := by
      rw [← List.head?_drop, ← henc, hwords, List.cons_append, List.head?_cons]
    rw [← hwords]
    rw [length_encode_eq i hwords] at hfit ⊢
    exact isBoundary_add_commandLength hk hw (by omega)

end Sys2Proof
end

