-- ==== Sys2Proof/Proofs/Frame.lean ====
section
/-! What a command does outside the register blocks: RES and OUT (10_state.md R21), and everything else it leaves alone or moves on
(42_control.md R186). -/

namespace Sys2Proof.Machine

open Claims

/-! ### Field by field -/

section
variable (n : Inst) (r : Reg) (f : Word → Word) (s : State)

@[simp] theorem res_markConfigured : (markConfigured n s).res = s.res := State.res_setBlk ..
@[simp] theorem out_markConfigured : (markConfigured n s).out = s.out := State.out_setBlk ..
@[simp] theorem pc_markConfigured : (markConfigured n s).pc = s.pc := State.pc_setBlk ..
@[simp] theorem halted_markConfigured : (markConfigured n s).halted = s.halted := State.halted_setBlk ..
@[simp] theorem refused_markConfigured : (markConfigured n s).refused = s.refused := State.refused_setBlk ..
@[simp] theorem sched_markConfigured : (markConfigured n s).sched = s.sched := State.sched_setBlk ..
@[simp] theorem port_markConfigured : (markConfigured n s).port = s.port := State.port_setBlk ..
@[simp] theorem draws_markConfigured : (markConfigured n s).draws = s.draws := State.draws_setBlk ..

@[simp] theorem res_resetPulse : (resetPulse n s).res = s.res := State.res_setBlk ..
@[simp] theorem out_resetPulse : (resetPulse n s).out = s.out := State.out_setBlk ..
@[simp] theorem pc_resetPulse : (resetPulse n s).pc = s.pc := State.pc_setBlk ..
@[simp] theorem halted_resetPulse : (resetPulse n s).halted = s.halted := State.halted_setBlk ..
@[simp] theorem refused_resetPulse : (resetPulse n s).refused = s.refused := State.refused_setBlk ..
@[simp] theorem sched_resetPulse : (resetPulse n s).sched = s.sched.rest := State.sched_setBlk ..
@[simp] theorem port_resetPulse : (resetPulse n s).port = s.port := State.port_setBlk ..
@[simp] theorem draws_resetPulse : (resetPulse n s).draws = s.draws + 1 := rfl

@[simp] theorem res_readModifyWrite : (readModifyWrite n r f s).res = s.res := by simp [readModifyWrite_state]
@[simp] theorem out_readModifyWrite : (readModifyWrite n r f s).out = s.out := by simp [readModifyWrite_state]
@[simp] theorem pc_readModifyWrite : (readModifyWrite n r f s).pc = s.pc := by simp [readModifyWrite_state]
@[simp] theorem prog_readModifyWrite : (readModifyWrite n r f s).prog = s.prog := by simp [readModifyWrite_state]
@[simp] theorem halted_readModifyWrite : (readModifyWrite n r f s).halted = s.halted := by simp [readModifyWrite_state]
@[simp] theorem refused_readModifyWrite : (readModifyWrite n r f s).refused = s.refused := by simp [readModifyWrite_state]
@[simp] theorem sched_readModifyWrite : (readModifyWrite n r f s).sched = s.sched.drop 2 := by simp [readModifyWrite_state]
@[simp] theorem port_readModifyWrite : (readModifyWrite n r f s).port = s.port := by simp [readModifyWrite_state]
@[simp] theorem draws_readModifyWrite : (readModifyWrite n r f s).draws = s.draws := by simp [readModifyWrite_state]
end

/-- The only next state of a command is the one its meaning writes out. -/
theorem eq_of_exec {i : Instr} {s t u : State} (h : exec i s = .next t) (hu : exec i s = .next u) : t = u :=
  Host.Outcome.next.inj (h.symm.trans hu)

theorem exec_rdflag (n : Inst) (f : Flag) (s : State) : exec (.rdflag n f) s
    = .next (advance 1 (report (zext16 ((busRead n .sts s).1 &&& flagMask f != 0)) (busRead n .sts s).2)) := rfl

theorem exec_rdint (n : Inst) (src : Source) (s : State) : exec (.rdint n src) s
    = .next (advance 1 (report (zext16 (((busRead n .ctrl2 s).1 &&& enMask src != 0)
        && ((busRead n .sts (busRead n .ctrl2 s).2).1 &&& stMask src != 0)))
      (busRead n .sts (busRead n .ctrl2 s).2).2)) := rfl

/-! ### RES and OUT -/

/-- A branch and HALT leave RES and OUT alone, whichever way they go. -/
theorem res_branchIf (taken : Bool) (off : Int) (s : State) : (branchIf taken off s).res = s.res := by
  obtain ⟨_, h⟩ | ⟨_, h⟩ := branchIf_cases taken off s <;> rw [h] <;> rfl

theorem out_branchIf (taken : Bool) (off : Int) (s : State) : (branchIf taken off s).out = s.out := by
  obtain ⟨_, h⟩ | ⟨_, h⟩ := branchIf_cases taken off s <;> rw [h] <;> rfl

theorem zext16_cases (v : Bool) : zext16 v = 1#16 ∨ zext16 v = 0#16 := by cases v <;> decide

/-- Settles O25: the commands that end in a report, the two whose report is a Boolean, and all others. -/
theorem resultsGoToResAndOut : Obligations.ResultsGoToResAndOut := by
  refine ⟨⟨rfl, rfl⟩, fun i s t h => ?_⟩
  cases i with
  | rxdata | rdtxcrc | rdrxcrc | rdpoly | busrd =>
    obtain rfl := eq_of_exec h rfl
    simp [returnsValue, returnsBool, readToResult_state]
  | rdflag n f =>
    obtain rfl := eq_of_exec h (exec_rdflag n f s)
    simp [returnsValue, returnsBool, zext16_cases]
  | rdint n src =>
    obtain rfl := eq_of_exec h (exec_rdint n src s)
    simp [returnsValue, returnsBool, zext16_cases]
  | bz off | bnz off =>
    obtain rfl := eq_of_exec h rfl
    simp [returnsValue, returnsBool, res_branchIf, out_branchIf]
  | _ =>
    obtain rfl := eq_of_exec h rfl
    simp [returnsValue, returnsBool, clearCrcError]

/-! ### The frame -/

theorem branchIf_frame (taken : Bool) (off : Int) (s : State) :
    (branchIf taken off s).prog = s.prog ∧ (branchIf taken off s).port = s.port
      ∧ (branchIf taken off s).sched = s.sched.rest ∧ (branchIf taken off s).halted = s.halted
      ∧ (branchIf taken off s).draws = s.draws := by
  obtain ⟨_, h⟩ | ⟨_, h⟩ := branchIf_cases taken off s <;> rw [h] <;> exact ⟨rfl, rfl, rfl, rfl, rfl⟩

/-- Settles O27: the branches and HALT apart, every field is as the accesses, the turns and `advance` leave it. -/
theorem frameOutsideTheBlocks : Obligations.FrameOutsideTheBlocks := by
  intro i s t h
  cases i with
  | bz off | bnz off =>
    obtain rfl := eq_of_exec h rfl
    obtain ⟨hprog, hport, hsched, hhalted, hdraws⟩ := branchIf_frame _ off s
    exact ⟨hprog, hport, hsched, fun _ => hhalted, by simp, fun _ => hdraws, by simp⟩
  | halt =>
    obtain rfl := eq_of_exec h rfl
    simp [turnsOf]
  | _ =>
    obtain rfl := eq_of_exec h rfl
    simp [turnsOf, encode, readToResult_state, clearCrcError]

end Sys2Proof.Machine
end

