-- ==== Sys2Proof/Proofs/Isolation.lean ====
section
/-! The two register blocks are isolated (60_exceptions.md R262): an access or a command of one leaves the other to the engines, and does
the same whatever the other holds. -/

namespace Sys2Proof.Machine

open Claims

/-! ### A block that is left to the engines -/

/-- The block of `m` and the schedule in `t` are as `k` turns of the engines from `s` leave them. -/
def LeftToEngines (m : Inst) (k : Nat) (s t : State) : Prop :=
  t.blk m = (engineTurn^[k] s).blk m ∧ t.sched = (engineTurn^[k] s).sched

namespace LeftToEngines

variable {m n : Inst} {k : Nat} {s t u : State}

theorem refl : LeftToEngines m 0 s s := ⟨rfl, rfl⟩

/-- What leaves the block of `m` and the schedule alone adds no turn. -/
theorem same (h : LeftToEngines m k s t) (hblk : u.blk m = t.blk m) (hsched : u.sched = t.sched) :
    LeftToEngines m k s u := ⟨hblk.trans h.1, hsched.trans h.2⟩

/-- What does to the block of `m` and to the schedule only what a turn does adds one turn. -/
theorem succ (h : LeftToEngines m k s t) (hblk : u.blk m = (engineTurn t).blk m) (hsched : u.sched = t.sched.rest) :
    LeftToEngines m (k + 1) s u := by
  obtain ⟨hm, hs⟩ := h
  rw [LeftToEngines, Function.iterate_succ_apply', blk_engineTurn, sched_engineTurn, ← hm, ← hs, ← blk_engineTurn]
  exact ⟨hblk, hsched⟩

theorem turn (h : LeftToEngines m k s t) : LeftToEngines m (k + 1) s (engineTurn t) := h.succ rfl rfl

theorem read (h : LeftToEngines m k s t) (hn : m ≠ n) (r : Reg) : LeftToEngines m (k + 1) s (busRead n r t).2 :=
  h.succ (blk_busRead_of_ne hn r t) (sched_busRead n r t)

theorem write (h : LeftToEngines m k s t) (hn : m ≠ n) (r : Reg) (v : Word) :
    LeftToEngines m (k + 1) s (busWrite n r v t) :=
  h.succ (blk_busWrite_of_ne hn r v t) (sched_busWrite n r v t)

theorem modify (h : LeftToEngines m k s t) (hn : m ≠ n) (r : Reg) (f : Word → Word) :
    LeftToEngines m (k + 2) s (readModifyWrite n r f t) :=
  (h.read hn r).write hn r _

theorem reset (h : LeftToEngines m k s t) (hn : m ≠ n) : LeftToEngines m (k + 1) s (resetPulse n t) :=
  h.succ (blk_resetPulse_of_ne hn t) (sched_resetPulse n t)

theorem report (h : LeftToEngines m k s t) (v : Word) : LeftToEngines m k s (report v t) := h.same (blk_report ..) rfl

theorem readReported (h : LeftToEngines m k s t) (hn : m ≠ n) (r : Reg) :
    LeftToEngines m (k + 1) s (readToResult n r t) := (h.read hn r).report _

theorem mark (h : LeftToEngines m k s t) (hn : m ≠ n) : LeftToEngines m k s (markConfigured n t) :=
  h.same (State.blk_setBlk_of_ne t hn _) (sched_markConfigured n t)

theorem advance (h : LeftToEngines m k s t) (words : Nat) : LeftToEngines m k s (advance words t) :=
  h.same (blk_advance ..) rfl

theorem branch (h : LeftToEngines m k s t) (taken : Bool) (off : Int) :
    LeftToEngines m (k + 1) s (branchIf taken off t) := by
  obtain ⟨_, hb⟩ | ⟨_, hb⟩ := branchIf_cases taken off t <;> rw [hb]
  · exact h.turn.same (State.blk_pc ..) rfl
  · exact h.turn.same (blk_refuse ..) rfl

end LeftToEngines

theorem ne_of_instOf {i : Instr} {m n : Inst} (hi : instOf i ≠ some m) (hn : instOf i = some n) : m ≠ n :=
  fun h => hi (h ▸ hn)

/-- A command that does not name `m` leaves its block to the engines. -/
theorem exists_leftToEngines {i : Instr} {m : Inst} (s : State) (hi : instOf i ≠ some m) :
    ∃ t, exec i s = .next t ∧ LeftToEngines m (turnsOf i) s t := by
  have hs : LeftToEngines m 0 s s := .refl
  have hne {n : Inst} : instOf i = some n → m ≠ n := ne_of_instOf hi
  cases i with
  | bz off | bnz off => exact ⟨_, rfl, hs.branch _ off⟩
  | halt => exact ⟨_, rfl, hs.turn.same (blk_halt ..) rfl⟩
  | rdflag => exact ⟨_, rfl, ((hs.read (hne rfl) _).report _).advance 1⟩
  | rdint => exact ⟨_, rfl, (((hs.read (hne rfl) _).read (hne rfl) _).report _).advance 1⟩
  | reset => exact ⟨_, rfl, (hs.reset (hne rfl)).advance 1⟩
  | configure => exact ⟨_, rfl, (((hs.modify (hne rfl) _ _).write (hne rfl) _ _).mark (hne rfl)).advance 2⟩
  | setframe => exact ⟨_, rfl, ((hs.modify (hne rfl) _ _).modify (hne rfl) _ _).advance 1⟩
  | txdata | clrflag | clrint | buswr => exact ⟨_, rfl, (hs.write (hne rfl) _ _).advance 1⟩
  | rxdata | rdtxcrc | rdrxcrc | rdpoly | busrd => exact ⟨_, rfl, (hs.readReported (hne rfl) _).advance 1⟩
  | _ => exact ⟨_, rfl, (hs.modify (hne rfl) _ _).advance 1⟩

theorem leftToEngines_of_exec {i : Instr} {m : Inst} {s t : State} (hi : instOf i ≠ some m) (h : exec i s = .next t) :
    LeftToEngines m (turnsOf i) s t := by
  obtain ⟨u, hu, hleft⟩ := exists_leftToEngines s hi
  rwa [eq_of_exec h hu]

/-! ### Two runs that differ in one block -/

/-- The two states differ in the block of `m` at most. -/
def AgreeOff (m : Inst) (s s' : State) : Prop := ∃ b, s' = s.setBlk m b

namespace AgreeOff

variable {m n : Inst} {s s' : State}

theorem turn (h : AgreeOff m s s') : AgreeOff m (engineTurn s) (engineTurn s') := by
  obtain ⟨b, rfl⟩ := h
  exact ⟨applyTurn s.sched.head m b, by cases m <;> rfl⟩

theorem blk_eq (h : AgreeOff m s s') (hn : n ≠ m) : s'.blk n = s.blk n := by
  obtain ⟨b, rfl⟩ := h
  exact State.blk_setBlk_of_ne s hn b

theorem setBlk (h : AgreeOff m s s') (hn : m ≠ n) (b : Block) : AgreeOff m (s.setBlk n b) (s'.setBlk n b) := by
  obtain ⟨c, rfl⟩ := h
  exact ⟨c, (State.setBlk_comm s hn b c).symm⟩

theorem res_eq (h : AgreeOff m s s') : s'.res = s.res := by
  obtain ⟨b, rfl⟩ := h
  exact State.res_setBlk s m b

/-- An update that neither reads nor writes the block of `m`. -/
theorem map (h : AgreeOff m s s') {g : State → State} (hg : ∀ s b, g (s.setBlk m b) = (g s).setBlk m b) :
    AgreeOff m (g s) (g s') := by
  obtain ⟨b, rfl⟩ := h
  exact ⟨b, hg s b⟩

theorem advance (h : AgreeOff m s s') (words : Nat) : AgreeOff m (advance words s) (advance words s') :=
  h.map fun _ _ => by cases m <;> rfl

theorem halt (h : AgreeOff m s s') : AgreeOff m (halt s) (halt s') :=
  h.map fun _ _ => by cases m <;> rfl

theorem report (h : AgreeOff m s s') {v v' : Word} (hv : v' = v) : AgreeOff m (report v s) (report v' s') := by
  rw [hv]
  exact h.map fun _ _ => by cases m <;> rfl

/-- A read of the other block returns the same. -/
theorem value_eq (h : AgreeOff m s s') (hn : m ≠ n) (r : Reg) : (busRead n r s').1 = (busRead n r s).1 := by
  rw [busRead_value, busRead_value, h.turn.blk_eq hn.symm]

theorem read (h : AgreeOff m s s') (hn : m ≠ n) (r : Reg) : AgreeOff m (busRead n r s).2 (busRead n r s').2 := by
  rw [busRead_state, busRead_state, h.turn.blk_eq hn.symm]
  exact h.turn.setBlk hn _

theorem write (h : AgreeOff m s s') (hn : m ≠ n) (r : Reg) {v v' : Word} (hv : v' = v) :
    AgreeOff m (busWrite n r v s) (busWrite n r v' s') := by
  rw [busWrite_state, busWrite_state, h.turn.blk_eq hn.symm, hv]
  exact h.turn.setBlk hn _

theorem modify (h : AgreeOff m s s') (hn : m ≠ n) (r : Reg) (f : Word → Word) :
    AgreeOff m (readModifyWrite n r f s) (readModifyWrite n r f s') :=
  (h.read hn r).write hn r (congrArg f (h.value_eq hn r))

theorem readReported (h : AgreeOff m s s') (hn : m ≠ n) (r : Reg) :
    AgreeOff m (readToResult n r s) (readToResult n r s') :=
  (h.read hn r).report (h.value_eq hn r)

theorem reset (h : AgreeOff m s s') (hn : m ≠ n) : AgreeOff m (resetPulse n s) (resetPulse n s') := by
  have hdraws : (engineTurn s').draws = (engineTurn s).draws := by
    obtain ⟨b, rfl⟩ := h
    exact State.draws_setBlk s m b
  rw [resetPulse, resetPulse, hdraws]
  exact (h.turn.setBlk hn _).map (g := fun s => { s with draws := _ }) fun _ _ => by cases m <;> rfl

theorem mark (h : AgreeOff m s s') (hn : m ≠ n) : AgreeOff m (markConfigured n s) (markConfigured n s') := by
  rw [markConfigured, markConfigured, h.blk_eq hn.symm]
  exact h.setBlk hn _

theorem branch (h : AgreeOff m s s') {taken taken' : Bool} (htaken : taken' = taken) (off : Int) :
    AgreeOff m (branchIf taken off s) (branchIf taken' off s') := by
  obtain ⟨b, hturn⟩ := h.turn
  rw [branchIf, branchIf, htaken, hturn, State.prog_setBlk, State.pc_setBlk]
  split_ifs
  all_goals exact ⟨b, by cases m <;> rfl⟩

/-- A command that does not name `m` does the same whatever the block of `m` holds. -/
theorem exec_next (h : AgreeOff m s s') {i : Instr} (hi : instOf i ≠ some m) :
    ∃ t t', exec i s = .next t ∧ exec i s' = .next t' ∧ AgreeOff m t t' := by
  have hne {n : Inst} : instOf i = some n → m ≠ n := ne_of_instOf hi
  cases i with
  | bz off | bnz off => exact ⟨_, _, rfl, rfl, h.branch (by rw [h.res_eq]) off⟩
  | halt => exact ⟨_, _, rfl, rfl, h.turn.halt⟩
  | rdflag n f =>
    have hv := h.value_eq (hne rfl) .sts
    exact ⟨_, _, exec_rdflag n f s, exec_rdflag n f s', ((h.read (hne rfl) _).report (by rw [hv])).advance 1⟩
  | rdint n src =>
    have hread := h.read (hne rfl) .ctrl2
    have he := h.value_eq (hne rfl) .ctrl2
    have hv := hread.value_eq (hne rfl) .sts
    exact ⟨_, _, exec_rdint n src s, exec_rdint n src s',
      ((hread.read (hne rfl) _).report (by rw [he, hv])).advance 1⟩
  | reset => exact ⟨_, _, rfl, rfl, (h.reset (hne rfl)).advance 1⟩
  | configure =>
    exact ⟨_, _, rfl, rfl, (((h.modify (hne rfl) _ _).write (hne rfl) _ rfl).mark (hne rfl)).advance 2⟩
  | setframe => exact ⟨_, _, rfl, rfl, ((h.modify (hne rfl) _ _).modify (hne rfl) _ _).advance 1⟩
  | txdata | clrflag | clrint | buswr => exact ⟨_, _, rfl, rfl, (h.write (hne rfl) _ rfl).advance 1⟩
  | rxdata | rdtxcrc | rdrxcrc | rdpoly | busrd => exact ⟨_, _, rfl, rfl, (h.readReported (hne rfl) _).advance 1⟩
  | _ => exact ⟨_, _, rfl, rfl, (h.modify (hne rfl) _ _).advance 1⟩

theorem of_exec (h : AgreeOff m s s') {i : Instr} (hi : instOf i ≠ some m) {t t' : State} (ht : exec i s = .next t)
    (ht' : exec i s' = .next t') : AgreeOff m t t' := by
  obtain ⟨u, u', hu, hu', hagree⟩ := h.exec_next hi
  rwa [eq_of_exec ht hu, eq_of_exec ht' hu']

end AgreeOff

/-- Settles O28: each access writes one block, and the states with another block of `m` agree off `m` all along. -/
theorem instancesAreIsolated : Obligations.InstancesAreIsolated := by
  refine ⟨fun n m r v s b hne => ?_, fun i m s t hi h => ⟨(leftToEngines_of_exec hi h).1, fun b t' h' => ?_⟩⟩
  · have hagree : AgreeOff m s (s.setBlk m b) := ⟨b, rfl⟩
    exact ⟨blk_busRead_of_ne hne.symm r s, blk_busWrite_of_ne hne.symm r v s, hagree.value_eq hne.symm r,
      (hagree.read hne.symm r).blk_eq hne, (hagree.write hne.symm r rfl).blk_eq hne⟩
  · exact AgreeOff.of_exec ⟨b, rfl⟩ hi h h'

end Sys2Proof.Machine
end

