-- ==== Sys2Proof/Proofs/ErrorFlags.lean ====
section
/-! An error flag is cleared by its own mechanism alone (60_exceptions.md R242, R244 to R246, 43_status_interrupt.md R208). A property of
one block that the engines and some accesses keep is kept by every command whose accesses to that block are among those. -/

namespace Sys2Proof.Machine

open Claims

/-! ### The accesses a command makes -/

/-- The command does not reset the block of `n`, and of that block it reads and writes only what is allowed, whatever value a
read-modify-write writes back. -/
def MakesOnly (n : Inst) (okRead : Reg → Prop) (okWrite : Reg → Word → Prop) : Instr → Prop
  | .reset m => m ≠ n
  | .configure m c => m = n → okRead .ctrl1 ∧ (∀ v, okWrite .ctrl1 v) ∧ okWrite .crcpoly c.poly
  | .enable m | .disable m | .ssiset m | .ssiclr m | .setframe m _ | .setdir m _ | .crcen m | .crcdis m | .crcnext m =>
    m = n → okRead .ctrl1 ∧ ∀ v, okWrite .ctrl1 v
  | .dmaen m _ | .dmadis m _ | .ssoeen m | .ssoedis m | .inten m _ | .intdis m _ =>
    m = n → okRead .ctrl2 ∧ ∀ v, okWrite .ctrl2 v
  | .txdata m v => m = n → okWrite .data v
  | .rxdata m => m = n → okRead .data
  | .rdtxcrc m => m = n → okRead .txcrc
  | .rdrxcrc m => m = n → okRead .rxcrc
  | .rdpoly m => m = n → okRead .crcpoly
  | .rdflag m _ => m = n → okRead .sts
  | .rdint m _ => m = n → okRead .ctrl2 ∧ okRead .sts
  | .clrflag m _ | .clrint m _ => m = n → okWrite .sts (~~~F_CRCERR)
  | .busrd m r => m = n → okRead r
  | .buswr m r v => m = n → okWrite r v
  | .bz _ | .bnz _ | .halt => True

/-- A property of a block that the engines, the allowed accesses and the ghost CFG_DONE keep. -/
structure KeptByAccesses (Q : Block → Prop) (okRead : Reg → Prop) (okWrite : Reg → Word → Prop) : Prop where
  event (f : ModfForce) (u : Rx8Upper) (e : EngineEvent) (b : Block) : Q b → Q (engineEvent f u e b)
  read (p : SeqIntervening) {r : Reg} {b : Block} : okRead r → Q b → Q (blockRead p r b)
  write (p : SeqIntervening) {r : Reg} {v : Word} {b : Block} : okWrite r v → Q b → Q (blockWrite p r v b)
  mark {b : Block} : Q b → Q { b with cfgDone := true }

namespace KeptByAccesses

variable {Q : Block → Prop} {okRead : Reg → Prop} {okWrite : Reg → Word → Prop} {n m : Inst} {s t : State}

theorem turn (hQ : KeptByAccesses Q okRead okWrite) (hs : Q (s.blk n)) : Q ((engineTurn s).blk n) := by
  rw [blk_engineTurn]
  exact applyTurn_induction hQ.event _ n hs

theorem busRead (hQ : KeptByAccesses Q okRead okWrite) {r : Reg} (hr : m = n → okRead r) (hs : Q (s.blk n)) :
    Q ((busRead m r s).2.blk n) := by
  by_cases hm : m = n
  · subst hm; rw [blk_busRead_self]; exact hQ.read _ (hr rfl) (hQ.turn hs)
  · rw [blk_busRead_of_ne (Ne.symm hm)]; exact hQ.turn hs

theorem busWrite (hQ : KeptByAccesses Q okRead okWrite) {r : Reg} {v : Word} (hw : m = n → okWrite r v)
    (hs : Q (s.blk n)) : Q ((busWrite m r v s).blk n) := by
  by_cases hm : m = n
  · subst hm; rw [blk_busWrite_self]; exact hQ.write _ (hw rfl) (hQ.turn hs)
  · rw [blk_busWrite_of_ne (Ne.symm hm)]; exact hQ.turn hs

theorem modify (hQ : KeptByAccesses Q okRead okWrite) {r : Reg} (f : Word → Word)
    (h : m = n → okRead r ∧ ∀ v, okWrite r v) (hs : Q (s.blk n)) : Q ((readModifyWrite m r f s).blk n) :=
  hQ.busWrite (fun hm => (h hm).2 _) (hQ.busRead (fun hm => (h hm).1) hs)

theorem markConfigured (hQ : KeptByAccesses Q okRead okWrite) (hs : Q (s.blk n)) : Q ((markConfigured m s).blk n) := by
  by_cases hm : m = n
  · subst hm; rw [Machine.markConfigured, State.blk_setBlk_self]; exact hQ.mark hs
  · rw [Machine.markConfigured, State.blk_setBlk_of_ne _ (Ne.symm hm)]; exact hs

theorem branch (hQ : KeptByAccesses Q okRead okWrite) (taken : Bool) (off : Int) (hs : Q (s.blk n)) :
    Q ((branchIf taken off s).blk n) := by
  obtain ⟨_, h⟩ | ⟨_, h⟩ := branchIf_cases taken off s <;> rw [h]
  · rw [State.blk_pc]; exact hQ.turn hs
  · rw [blk_refuse]; exact hQ.turn hs

/-- A command whose accesses to `n` are allowed keeps the property of the block of `n`. -/
theorem exec_next (hQ : KeptByAccesses Q okRead okWrite) {i : Instr} (hi : MakesOnly n okRead okWrite i)
    (hs : Q (s.blk n)) : ∃ t, exec i s = .next t ∧ Q (t.blk n) := by
  cases i with
  | reset m => exact ⟨_, rfl, by rw [blk_advance, blk_resetPulse_of_ne (Ne.symm hi)]; exact hQ.turn hs⟩
  | configure m c =>
    refine ⟨_, rfl, ?_⟩
    rw [blk_advance]
    exact hQ.markConfigured (hQ.busWrite (fun hm => (hi hm).2.2)
      (hQ.modify _ (fun hm => ⟨(hi hm).1, (hi hm).2.1⟩) hs))
  | setframe => exact ⟨_, rfl, by rw [blk_advance]; exact hQ.modify _ hi (hQ.modify _ hi hs)⟩
  | txdata | clrflag | clrint | buswr => exact ⟨_, rfl, by rw [blk_advance]; exact hQ.busWrite hi hs⟩
  | rxdata | rdtxcrc | rdrxcrc | rdpoly | busrd =>
    exact ⟨_, rfl, by rw [blk_advance, readToResult_state, blk_report]; exact hQ.busRead hi hs⟩
  | rdflag m f => exact ⟨_, exec_rdflag m f s, by rw [blk_advance, blk_report]; exact hQ.busRead hi hs⟩
  | rdint m src =>
    refine ⟨_, exec_rdint m src s, ?_⟩
    rw [blk_advance, blk_report]
    exact hQ.busRead (fun hm => (hi hm).2) (hQ.busRead (fun hm => (hi hm).1) hs)
  | bz off | bnz off => exact ⟨_, rfl, hQ.branch _ off hs⟩
  | halt => exact ⟨_, rfl, by rw [blk_halt]; exact hQ.turn hs⟩
  | _ => exact ⟨_, rfl, by rw [blk_advance]; exact hQ.modify _ hi hs⟩

theorem of_exec (hQ : KeptByAccesses Q okRead okWrite) {i : Instr} (h : exec i s = .next t)
    (hi : MakesOnly n okRead okWrite i) (hs : Q (s.blk n)) : Q (t.blk n) := by
  obtain ⟨u, hu, hQu⟩ := hQ.exec_next hi hs
  rwa [eq_of_exec h hu]

end KeptByAccesses

/-! ### The error flags and their latches through one access -/

section
variable (p : SeqIntervening) (k : AccessKind) (b : Block) (r : Reg) (v : Word)

@[simp] theorem crcerr_clearStep : (clearStep p k b).crcerr = b.crcerr := by cases k <;> rfl

@[simp] theorem ovr_clearStep : (clearStep p k b).ovr = (b.ovr && !(k == .stsRead && b.ovrArm)) := by
  cases k <;> simp [clearStep, clearOverrun, clearUnderrun, clearModeFault]

@[simp] theorem modf_clearStep : (clearStep p k b).modf = (b.modf && !(k == .ctrl1Write && b.modfArm)) := by
  cases k <;> simp [clearStep, clearOverrun, clearUnderrun, clearModeFault]

theorem ovrArm_clearStep (hk : k ≠ .dataRead) (h : b.ovrArm = false) : (clearStep p k b).ovrArm = false := by
  cases k with
  | dataRead => exact absurd rfl hk
  | stsRead | ctrl1Read | ctrl1Write | other => simp [clearStep, clearOverrun, clearUnderrun, clearModeFault, h]

theorem modfArm_clearStep (hk : k ≠ .stsRead) (h : b.modfArm = false) : (clearStep p k b).modfArm = false := by
  cases k with
  | stsRead => exact absurd rfl hk
  | dataRead | ctrl1Read | ctrl1Write | other => simp [clearStep, clearOverrun, clearUnderrun, clearModeFault, h]

theorem writeKind_ne : writeKind r ≠ .stsRead ∧ writeKind r ≠ .dataRead := by cases r <;> decide
theorem readKind_ne : readKind r ≠ .ctrl1Write := by cases r <;> decide

-- What a read does besides its clear step touches none of the error flags and latches.
@[simp] theorem crcerr_readEffect : (readEffect r b).crcerr = b.crcerr := by cases r <;> rfl
@[simp] theorem udr_readEffect : (readEffect r b).udr = b.udr := by cases r <;> rfl
@[simp] theorem ovr_readEffect : (readEffect r b).ovr = b.ovr := by cases r <;> rfl
@[simp] theorem ovrArm_readEffect : (readEffect r b).ovrArm = b.ovrArm := by cases r <;> rfl
@[simp] theorem modf_readEffect : (readEffect r b).modf = b.modf := by cases r <;> rfl
@[simp] theorem modfArm_readEffect : (readEffect r b).modfArm = b.modfArm := by cases r <;> rfl

-- What a write stores touches CRCERR at most.
@[simp] theorem udr_writeEffect : (writeEffect r v b).udr = b.udr := by cases r <;> rfl
@[simp] theorem ovr_writeEffect : (writeEffect r v b).ovr = b.ovr := by cases r <;> rfl
@[simp] theorem ovrArm_writeEffect : (writeEffect r v b).ovrArm = b.ovrArm := by cases r <;> rfl
@[simp] theorem modf_writeEffect : (writeEffect r v b).modf = b.modf := by cases r <;> rfl
@[simp] theorem modfArm_writeEffect : (writeEffect r v b).modfArm = b.modfArm := by cases r <;> rfl
end

theorem readKind_eq_stsRead {r : Reg} : readKind r = .stsRead ↔ r = .sts := by cases r <;> decide
theorem readKind_eq_dataRead {r : Reg} : readKind r = .dataRead ↔ r = .data := by cases r <;> decide
theorem writeKind_eq_ctrl1Write {r : Reg} : writeKind r = .ctrl1Write ↔ r = .ctrl1 := by cases r <;> decide

theorem crcerr_writeEffect {r : Reg} {v : Word} {b : Block} (hw : r = .sts → v.getLsbD 4 = true) :
    (writeEffect r v b).crcerr = b.crcerr := by
  cases r with
  | sts => simp [writeEffect, hw rfl]
  | ctrl1 | ctrl2 | data | crcpoly | rxcrc | txcrc => rfl

/-! ### What keeps each flag -/

/-- CRCERR: everything but an STS write with bit 4 = 0. -/
theorem keptByAccesses_crcerr :
    KeptByAccesses (fun b => b.crcerr = true) (fun _ => True) fun r v => r = .sts → v.getLsbD 4 = true where
  event f u e b h := by
    cases e with
    | crcerr => exact rfl
    | _ => exact h
  read p r b _ h := by simpa [blockRead] using h
  write p r v b hw h := by simpa [blockWrite, crcerr_writeEffect hw] using h
  mark h := h

/-- UDR: everything but an STS read. -/
theorem keptByAccesses_udr : KeptByAccesses (fun b => b.udr = true) (fun r => r ≠ .sts) fun _ _ => True where
  event f u e b h := by
    cases e with
    | udr => exact rfl
    | _ => exact h
  read p r b hr h := by simpa [blockRead, udr_clearStep, readKind_eq_stsRead, hr] using h
  write p r v b _ h := by simpa [blockWrite, udr_clearStep, (writeKind_ne r).1] using h
  mark h := h

/-- OVR: everything but an STS read. -/
theorem keptByAccesses_ovr : KeptByAccesses (fun b => b.ovr = true) (fun r => r ≠ .sts) fun _ _ => True where
  event f u e b h := by
    cases e with
    | ovr => exact rfl
    | _ => exact h
  read p r b hr h := by simp [blockRead, readKind_eq_stsRead, hr, h]
  write p r v b _ h := by simp [blockWrite, (writeKind_ne r).1, h]
  mark h := h

/-- OVR with its latch not armed: an STS read too, but not the DATA read that arms the latch. -/
theorem keptByAccesses_ovr_disarmed :
    KeptByAccesses (fun b => b.ovr = true ∧ b.ovrArm = false) (fun r => r ≠ .data) fun _ _ => True where
  event f u e b h := by
    cases e with
    | ovr => exact ⟨rfl, h.2⟩
    | _ => exact h
  read p r b hr h := by
    have hk : readKind r ≠ .dataRead := fun hd => hr (readKind_eq_dataRead.1 hd)
    exact ⟨by simp [blockRead, h], ovrArm_clearStep _ _ _ hk (by simp [h])⟩
  write p r v b _ h := ⟨by simp [blockWrite, h], ovrArm_clearStep _ _ _ (writeKind_ne r).2 (by simp [h])⟩
  mark h := h

/-- MODF: everything but a CTRL1 write. -/
theorem keptByAccesses_modf : KeptByAccesses (fun b => b.modf = true) (fun _ => True) fun r _ => r ≠ .ctrl1 where
  event f u e b h := by
    cases e with
    | modf => exact rfl
    | _ => exact h
  read p r b _ h := by simp [blockRead, readKind_ne r, h]
  write p r v b hw h := by simp [blockWrite, writeKind_eq_ctrl1Write, hw, h]
  mark h := h

/-- MODF with its latch not armed: a CTRL1 write too, but not the STS read that arms the latch. -/
theorem keptByAccesses_modf_disarmed :
    KeptByAccesses (fun b => b.modf = true ∧ b.modfArm = false) (fun r => r ≠ .sts) fun _ _ => True where
  event f u e b h := by
    cases e with
    | modf => exact ⟨rfl, h.2⟩
    | _ => exact h
  read p r b hr h := by
    have hk : readKind r ≠ .stsRead := fun hd => hr (readKind_eq_stsRead.1 hd)
    exact ⟨by simp [blockRead, h], modfArm_clearStep _ _ _ hk (by simp [h])⟩
  write p r v b _ h := ⟨by simp [blockWrite, h], modfArm_clearStep _ _ _ (writeKind_ne r).1 (by simp [h])⟩
  mark h := h

/-! ### Which commands make which accesses -/

section
variable {i : Instr} {n : Inst}

theorem makesOnly_of_not_clearsCrcErr (hreset : i ≠ .reset n) (h : ¬ clearsCrcErr n i) :
    MakesOnly n (fun _ => True) (fun r v => r = .sts → v.getLsbD 4 = true) i := by
  cases i <;> simp_all [MakesOnly, clearsCrcErr]

theorem makesOnly_of_not_readsSts (hreset : i ≠ .reset n) (h : ¬ readsSts n i) :
    MakesOnly n (fun r => r ≠ .sts) (fun _ _ => True) i := by
  cases i <;> simp_all [MakesOnly, readsSts]

theorem makesOnly_of_readsSts (h : readsSts n i) : MakesOnly n (fun r => r ≠ .data) (fun _ _ => True) i := by
  cases i <;> simp_all [MakesOnly, readsSts]

theorem makesOnly_of_not_writesCtrl1 (hreset : i ≠ .reset n) (h : ¬ writesCtrl1 n i) :
    MakesOnly n (fun _ => True) (fun r _ => r ≠ .ctrl1) i := by
  cases i <;> simp_all [MakesOnly, writesCtrl1]

theorem makesOnly_of_writesCtrl1 (h : writesCtrl1 n i) : MakesOnly n (fun r => r ≠ .sts) (fun _ _ => True) i := by
  cases i <;> simp_all [MakesOnly, writesCtrl1]
end

/-- Settles O18: a command that does not use a flag's mechanism, or uses it with the latch not armed, keeps the flag. -/
theorem errorFlagsClearOnlyByTheirMechanism : Obligations.ErrorFlagsClearOnlyByTheirMechanism := by
  intro i n s t h
  by_cases hreset : i = .reset n
  · simp [hreset]
  have lost {f : Bool} (hclear : f = false) (hset : f = true) : False := by simp [hclear] at hset
  refine ⟨fun hs ht => .inr ?_, fun hs ht => .inr ?_, fun hs ht => .inr ?_, fun hs ht => .inr ?_⟩
  · by_contra hc
    exact lost ht (keptByAccesses_crcerr.of_exec h (makesOnly_of_not_clearsCrcErr hreset hc) hs)
  · by_contra hr
    exact lost ht (keptByAccesses_udr.of_exec h (makesOnly_of_not_readsSts hreset hr) hs)
  · have hr : readsSts n i := by
      by_contra hr
      exact lost ht (keptByAccesses_ovr.of_exec h (makesOnly_of_not_readsSts hreset hr) hs)
    refine ⟨hr, Bool.eq_true_of_not_eq_false fun harm => ?_⟩
    exact lost ht (keptByAccesses_ovr_disarmed.of_exec h (makesOnly_of_readsSts hr) ⟨hs, harm⟩).1
  · have hw : writesCtrl1 n i := by
      by_contra hw
      exact lost ht (keptByAccesses_modf.of_exec h (makesOnly_of_not_writesCtrl1 hreset hw) hs)
    refine ⟨hw, Bool.eq_true_of_not_eq_false fun harm => ?_⟩
    exact lost ht (keptByAccesses_modf_disarmed.of_exec h (makesOnly_of_writesCtrl1 hw) ⟨hs, harm⟩).1

end Sys2Proof.Machine
end

