-- ==== Sys2Proof/Proofs/Fetch.lean ====
section
/-! Fetching (10_state.md R22, 70_reset_and_hazards.md R276): what a step does by the words at the pc, and where it leaves the pc. -/

namespace Sys2Proof.Machine

open Claims

/-! ### The three steps of a machine that is not stopped -/

theorem stopped_eq_false {s : State} (hhalted : s.halted = false) (hrefused : s.refused = none)
    (hpc : s.pc ≠ s.prog.length) : stopped s = false := by
  simp [← Bool.not_eq_true, stopped_iff, hhalted, hrefused, hpc]

section
variable {s : State} (hstop : stopped s = false)
include hstop

theorem step_of_request {q : BusRequest} {rest : List BusRequest} (hport : s.port = q :: rest) :
    step s = .next (serveRequest q { s with port := rest }) := by
  simp [step, hstop, hport]

theorem step_of_fetch_ok {i : Instr} (hport : s.port = []) (hfetch : fetch s.prog s.pc = .ok i) : step s = exec i s := by
  simp [step, hstop, hport, hfetch]

theorem step_of_fetch_error {why : Reason} (hport : s.port = []) (hfetch : fetch s.prog s.pc = .error why) :
    step s = .next (refuse why (engineTurn s)) := by
  simp [step, hstop, hport, hfetch]
end

/-- Every step is a turn of the engines alone, a request served, the command fetched, or a refused fetch. -/
theorem step_cases {s t : State} (h : step s = .next t) :
    t = engineTurn s ∨ (∃ q rest, t = serveRequest q { s with port := rest })
    ∨ (∃ i, fetch s.prog s.pc = .ok i ∧ exec i s = .next t) ∨ ∃ why, t = refuse why (engineTurn s) := by
  cases hstop : stopped s with
  | true => exact .inl (eq_engineTurn_of_stopped hstop h)
  | false =>
    cases hport : s.port with
    | cons q rest => exact .inr (.inl ⟨q, rest, Host.Outcome.next.inj (h.symm.trans (step_of_request hstop hport))⟩)
    | nil =>
      cases hfetch : fetch s.prog s.pc with
      | ok i => exact .inr (.inr (.inl ⟨i, rfl, (step_of_fetch_ok hstop hport hfetch).symm.trans h⟩))
      | error why =>
        exact .inr (.inr (.inr ⟨why, Host.Outcome.next.inj (h.symm.trans (step_of_fetch_error hstop hport hfetch))⟩))

/-! ### What is fetched -/

section
variable {prog : List CmdWord} {pc : Nat}

theorem fetch_of_not_boundary (h : isBoundary prog pc = false) : fetch prog pc = .error .badTarget := by
  simp [fetch, h]

theorem fetch_of_decode_ok {i : Instr} {rest : List CmdWord} (h : isBoundary prog pc = true)
    (hi : decode (prog.drop pc) = .ok (i, rest)) : fetch prog pc = .ok i := by
  simp [fetch, h, hi, Except.map]

theorem fetch_of_decode_error {why : Reason} (h : isBoundary prog pc = true)
    (hi : decode (prog.drop pc) = .error why) : fetch prog pc = .error why := by
  simp [fetch, h, hi, Except.map]

theorem fetch_eq_ok {i : Instr} (h : fetch prog pc = .ok i) :
    isBoundary prog pc = true ∧ ∃ rest, decode (prog.drop pc) = .ok (i, rest) := by
  cases hb : isBoundary prog pc with
  | false => simp [fetch_of_not_boundary hb] at h
  | true =>
    cases hd : decode (prog.drop pc) with
    | error why => simp [fetch_of_decode_error hb hd] at h
    | ok x =>
      obtain ⟨j, rest⟩ := x
      obtain rfl : j = i := Except.ok.inj ((fetch_of_decode_ok hb hd).symm.trans h)
      exact ⟨rfl, rest, rfl⟩

/-- Words that decode are not beyond the end of the stream. -/
theorem ne_length_of_decode_ok {i : Instr} {rest : List CmdWord} (hi : decode (prog.drop pc) = .ok (i, rest)) :
    pc ≠ prog.length := by
  rintro rfl
  rw [List.drop_length] at hi
  cases hi
end

/-- Settles O29: such a machine is not stopped, and its fetch gives the command. -/
theorem stepRunsTheDecodedCommand : Obligations.StepRunsTheDecodedCommand := by
  intro s i rest hhalted hrefused hport hpc hi
  exact step_of_fetch_ok (stopped_eq_false hhalted hrefused (ne_length_of_decode_ok hi)) hport (fetch_of_decode_ok hpc hi)

/-- Settles O30: such a machine is not stopped, and its fetch gives the reason. -/
theorem fetchRefusals : Obligations.FetchRefusals := by
  intro s hhalted hrefused hport hpc
  have hstop := stopped_eq_false hhalted hrefused hpc
  exact ⟨fun hb => step_of_fetch_error hstop hport (fetch_of_not_boundary hb),
    fun why hb hd => step_of_fetch_error hstop hport (fetch_of_decode_error hb hd)⟩

/-! ### Branch targets (R190) -/

theorem isTarget_iff {prog : List CmdWord} {t : Int} :
    isTarget prog t = true ↔ 0 ≤ t ∧ (isBoundary prog t.toNat = true ∨ t.toNat = prog.length) := by
  simp [isTarget]

theorem isTarget_natCast_of_boundary {prog : List CmdWord} {k : Nat} (h : isBoundary prog k = true) :
    isTarget prog k = true :=
  isTarget_iff.2 ⟨by omega, .inl (by simpa using h)⟩

/-- Settles O60: HALT by its meaning, the stopped machine by `step_of_stopped`. -/
theorem haltEndsTheRun : Obligations.HaltEndsTheRun :=
  fun _ => ⟨rfl, fun h => step_of_stopped (stopped_iff.2 h), fun h => ⟨.inl rfl, h⟩⟩

/-- A branch to `t`: what R190 says of it by whether `t` is a target. -/
theorem branchIf_eq {taken : Bool} {off t : Int} {s : State} (ht : t = if taken then (s.pc : Int) + off else s.pc + 1) :
    (0 ≤ t → (isBoundary s.prog t.toNat = true ∨ t.toNat = s.prog.length) →
      branchIf taken off s = { engineTurn s with pc := t.toNat })
    ∧ (t < 0 ∨ (isBoundary s.prog t.toNat = false ∧ t.toNat ≠ s.prog.length) →
      branchIf taken off s = refuse .badTarget (engineTurn s)) := by
  subst ht
  obtain ⟨htarget, h⟩ | ⟨htarget, h⟩ := branchIf_cases taken off s
  · obtain ⟨hpos, htarget⟩ := isTarget_iff.1 htarget
    refine ⟨fun _ _ => h, ?_⟩
    rintro (hneg | ⟨hb, hend⟩)
    · omega
    · rw [hb] at htarget
      simp [hend] at htarget
  · refine ⟨fun hpos hb => ?_, fun _ => h⟩
    rw [isTarget_iff.2 ⟨hpos, hb⟩] at htarget
    cases htarget

/-- Settles O59: both are `branchIf`, with the condition on RES. -/
theorem branches : Obligations.Branches := by
  intro off s
  constructor
  · intro t ht
    have hbranch := branchIf_eq (taken := s.res == 0x0000) (by simpa using ht)
    exact ⟨fun hpos hb => congrArg _ (hbranch.1 hpos hb), fun hno => congrArg _ (hbranch.2 hno)⟩
  · intro t ht
    have hbranch := branchIf_eq (taken := s.res != 0x0000) (by simpa using ht)
    exact ⟨fun hpos hb => congrArg _ (hbranch.1 hpos hb), fun hno => congrArg _ (hbranch.2 hno)⟩

/-! ### The pc stays on the stream's boundaries -/

theorem pc_serveRequest (q : BusRequest) (s : State) : (serveRequest q s).pc = s.pc := by
  obtain ⟨n, r, h⟩ | ⟨n, r, v, h⟩ | ⟨why, _, h⟩ := serveRequest_cases q s <;> simp [h, readToResult_state]

theorem branchIf_pcInStream (taken : Bool) (off : Int) {s : State} (hs : s.pcInStream) :
    (branchIf taken off s).pcInStream := by
  obtain ⟨htarget, h⟩ | ⟨_, h⟩ := branchIf_cases taken off s <;> rw [h]
  · have hpos := (isTarget_iff.1 htarget).1
    rwa [← Int.toNat_of_nonneg hpos] at htarget
  · exact hs

/-- A command fetched at the pc leads to a boundary: past its own words, to a target, or nowhere. -/
theorem exec_pcInStream {i : Instr} {s t : State} (hs : s.pcInStream) (hfetch : fetch s.prog s.pc = .ok i)
    (h : exec i s = .next t) : t.pcInStream := by
  obtain ⟨hb, rest, hi⟩ := fetch_eq_ok hfetch
  obtain ⟨hprog, -, -, -, -, -, hpc⟩ := frameOutsideTheBlocks i s t h
  have hpast : t.pc = s.pc + (encode i).length → t.pcInStream := fun hpc => by
    rw [State.pcInStream, hprog, hpc]
    exact isTarget_natCast_of_boundary (isBoundary_after_decode hb hi)
  cases i with
  | bz off | bnz off => obtain rfl := eq_of_exec h rfl; exact branchIf_pcInStream _ off hs
  | halt => obtain rfl := eq_of_exec h rfl; exact hs
  | _ => exact hpast (hpc (by simp) (by simp))

/-- Settles O22: only a command moves the pc. -/
theorem stepKeepsPcOnBoundary : Obligations.StepKeepsPcOnBoundary := by
  intro s t hs h
  have hprog := streamIsFixed s t h
  obtain rfl | ⟨q, rest, rfl⟩ | ⟨i, hfetch, hexec⟩ | ⟨why, rfl⟩ := step_cases h
  · exact hs
  · rw [State.pcInStream, hprog, pc_serveRequest]; exact hs
  · exact exec_pcInStream hs hfetch hexec
  · exact hs

end Sys2Proof.Machine
end

