-- ==== Sys2Proof/Proofs/Loading.lean ====
section
/-! Words placed at the pc are the next to run (log 7): the words before them end on a command boundary, and what a command is decoded
from does not depend on what follows it. -/

namespace Sys2Proof

theorem decode_append {ws rest : List CmdWord} {i : Instr} (h : decode ws = .ok (i, rest)) (more : List CmdWord) :
    decode (ws ++ more) = .ok (i, rest ++ more) := by
  obtain ⟨hwf, henc⟩ := encodeOfDecode _ _ _ h
  rw [← henc, List.append_assoc]
  exact decodeOfEncode i (rest ++ more) hwf

theorem decode_of_decodeTableWord {nbits w : Nat} {i : Instr} (h : decodeTableWord nbits w = some i) :
    ∃ rest, decode (tableWords nbits w) = .ok (i, rest) := by
  unfold decodeTableWord at h
  split at h
  case h_1 j rest hd =>
    obtain rfl : j = i := Option.some.inj h
    exact ⟨rest, hd⟩
  case h_2 => cases h

/-- Whether an index is a boundary is settled by the words before it. -/
theorem boundaryFrom_append (skip : Bool) {ws : List CmdWord} {k : Nat} (hk : k ≤ ws.length) (more : List CmdWord) :
    boundaryFrom skip (ws ++ more) k = boundaryFrom skip ws k := by
  induction ws generalizing skip k with
  | nil =>
    obtain rfl : k = 0 := by simpa using hk
    rw [boundaryFrom_zero, boundaryFrom_zero]
  | cons w ws ih =>
    cases k with
    | zero => rw [boundaryFrom_zero, boundaryFrom_zero]
    | succ k =>
      have hk' : k ≤ ws.length := by simpa using hk
      cases skip with
      | false => exact ih _ hk'
      | true => exact ih false hk'

theorem isBoundary_replicate_halt (k : Nat) : isBoundary (List.replicate k 0x0000001F#32) k = true := by
  induction k with
  | zero => rfl
  | succ k ih => exact ih

namespace Machine

variable (prog : List CmdWord) (pc : Nat)

theorem length_wordsBefore : (wordsBefore prog pc).length = pc := by
  unfold wordsBefore
  split
  case isTrue h => rw [List.length_take, Nat.min_eq_left (le_length_of_isBoundary h)]
  case isFalse => rw [List.length_replicate]

/-- The words before the pc keep it a boundary, whatever follows them. -/
theorem isBoundary_wordsBefore_append (more : List CmdWord) : isBoundary (wordsBefore prog pc ++ more) pc = true := by
  rw [isBoundary, boundaryFrom_append false (length_wordsBefore prog pc).ge]
  unfold wordsBefore
  split
  case isTrue h =>
    have hle : pc ≤ (prog.take pc).length := by
      rw [List.length_take, Nat.min_eq_left (le_length_of_isBoundary h)]
    rw [← boundaryFrom_append false hle (prog.drop pc), List.take_append_drop]
    exact h
  case isFalse => exact isBoundary_replicate_halt pc

/-- Settles O31: the machine of `placeAtPc` is not stopped, and the words at its pc decode as the placed ones do. -/
theorem placedWordIsRun : Obligations.PlacedWordIsRun := by
  intro s nbits w i h
  obtain ⟨rest, hd⟩ := decode_of_decodeTableWord h
  obtain ⟨more, hprog⟩ : ∃ more,
      (s.withFetchWord nbits w).prog = wordsBefore s.prog s.pc ++ (tableWords nbits w ++ more) :=
    ⟨_, List.append_assoc ..⟩
  have hdrop : (s.withFetchWord nbits w).prog.drop s.pc = tableWords nbits w ++ more := by
    rw [hprog, List.drop_left' (length_wordsBefore s.prog s.pc)]
  have hb : isBoundary (s.withFetchWord nbits w).prog s.pc = true := by
    rw [hprog]
    exact isBoundary_wordsBefore_append s.prog s.pc _
  refine stepRunsTheDecodedCommand _ i (rest ++ more) rfl rfl rfl hb ?_
  exact (congrArg decode hdrop).trans (decode_append hd more)

end Machine

end Sys2Proof
end

