-- ==== Sys2Proof/Proofs/Port.lean ====
section
/-! The bus port (20_memory.md R51 to R55): every register has an address of its own, and a waiting request is refused or is the access of
the register at its address. -/

namespace Sys2Proof.Machine

/-! ### The address map -/

theorem regOffset_injective {r q : Reg} (h : regOffset r = regOffset q) : r = q := by
  cases r <;> cases q <;> simp_all [regOffset]

theorem regOffset_lt (r : Reg) : regOffset r < 0x1C := by cases r <;> decide

/-- R51: whichever block is the lower one, the other begins after its end. -/
theorem blocks_disjoint {n m : Inst} (h : n ≠ m) :
    Config.base n + 0x1C ≤ Config.base m ∨ Config.base m + 0x1C ≤ Config.base n := by
  unfold Config.base
  by_cases hn : n = Config.lowerBlock
  · have hm : m ≠ Config.lowerBlock := fun hm => h (hn.trans hm.symm)
    rw [if_pos hn, if_neg hm]
    omega
  · have hm : m = Config.lowerBlock := by
      revert h hn
      cases n <;> cases m <;> cases Config.lowerBlock <;> decide
    rw [if_neg hn, if_pos hm]
    omega

theorem regAddr_injective {n m : Inst} {r q : Reg} (h : regAddr n r = regAddr m q) : n = m ∧ r = q := by
  unfold regAddr at h
  have hr := regOffset_lt r
  have hq := regOffset_lt q
  by_cases hnm : n = m
  · subst hnm
    exact ⟨rfl, regOffset_injective (by omega)⟩
  · have := blocks_disjoint hnm
    omega

theorem mem_mappedRegs (n : Inst) (r : Reg) : (n, r) ∈ mappedRegs := by cases n <;> cases r <;> decide

theorem busTarget_eq_some {addr : Nat} {n : Inst} {r : Reg} : busTarget addr = some (n, r) ↔ addr = regAddr n r := by
  constructor
  · intro h
    simpa using List.find?_some h
  · rintro rfl
    obtain ⟨⟨m, q⟩, hx⟩ : ∃ x, busTarget (regAddr n r) = some x :=
      Option.isSome_iff_exists.1 (List.find?_isSome.2 ⟨(n, r), mem_mappedRegs n r, by simp⟩)
    have haddr : regAddr n r = regAddr m q := by simpa using List.find?_some hx
    obtain ⟨rfl, rfl⟩ := regAddr_injective haddr
    exact hx

/-- Settles O32: an address is in the map exactly for the register it is the address of. -/
theorem addressMap : Obligations.AddressMap :=
  ⟨fun _ _ => busTarget_eq_some.2 rfl, fun _ _ _ h => busTarget_eq_some.1 h, blocks_disjoint (by decide), rfl⟩

theorem busTarget_eq_none {addr : Nat} (h : ∀ n r, addr ≠ Config.base n + regOffset r) : busTarget addr = none := by
  cases hx : busTarget addr with
  | none => rfl
  | some x => exact absurd (busTarget_eq_some.1 hx) (h x.1 x.2)

/-! ### Requests -/

section
variable {q : BusRequest} (s : State)

theorem serveRequest_of_other (h : q.master = .other) : serveRequest q s = refuse .secondMaster (engineTurn s) := by
  rw [serveRequest, h]

theorem serveRequest_of_width (h : q.master = .own) (hwidth : q.width ≠ 16) :
    serveRequest q s = refuse .badWidth (engineTurn s) := by
  simp [serveRequest, h, hwidth]

theorem serveRequest_of_unmapped (h : q.master = .own) (hwidth : q.width = 16) (haddr : busTarget q.addr = none) :
    serveRequest q s = refuse .unmapped (engineTurn s) := by
  simp [serveRequest, h, hwidth, haddr]

theorem serveRequest_of_read {n : Inst} {r : Reg} (h : q.master = .own) (hwidth : q.width = 16)
    (haddr : busTarget q.addr = some (n, r)) (hdata : q.data = none) : serveRequest q s = readToResult n r s := by
  simp [serveRequest, h, hwidth, haddr, hdata]

theorem serveRequest_of_write {n : Inst} {r : Reg} {v : Word} (h : q.master = .own) (hwidth : q.width = 16)
    (haddr : busTarget q.addr = some (n, r)) (hdata : q.data = some v) : serveRequest q s = busWrite n r v s := by
  simp [serveRequest, h, hwidth, haddr, hdata]
end

/-- Settles O33: the step is the request's, and the request's case by master, width and address. -/
theorem busPortAnswers : Obligations.BusPortAnswers := by
  refine ⟨fun s q rest hhalted hrefused hpc hport => step_of_request (stopped_eq_false hhalted hrefused hpc) hport,
    fun q s => ⟨serveRequest_of_other s, serveRequest_of_width s, fun h hwidth haddr => ?_,
      fun n r h hwidth haddr => ?_⟩⟩
  · exact serveRequest_of_unmapped s h hwidth (busTarget_eq_none haddr)
  · have htarget := busTarget_eq_some.2 haddr
    exact ⟨serveRequest_of_read s h hwidth htarget, fun v => serveRequest_of_write s h hwidth htarget⟩

end Sys2Proof.Machine
end

