-- ==== Sys2Proof/Proofs/Registers.lean ====
section
/-! Commands that are one access or one read-modify-write of a register (42_control.md): what they leave whatever the engines do, and the
whole next state while the engines are quiet (60_exceptions.md R239). -/

namespace Sys2Proof.Machine

open Claims

/-! ### Two accesses in a row -/

theorem afterOther_ctrl2_afterOther (v : Word) (b : Block) :
    afterOther { afterOther b with ctrl2 := v } = afterOther { b with ctrl2 := v } := by simp [afterOther]

theorem afterCtrl1Write_afterCtrl1Read (v : Word) (b : Block) :
    afterCtrl1Write v (afterCtrl1Read b) = afterCtrl1Write v b := by simp [afterCtrl1Write, afterCtrl1Read]

/-! ### The state after a command while the engines are quiet -/

section
variable (j k words words' : Nat) (n : Inst) (v : Word) (b c : Block) (s : State)

@[simp] theorem blk_after : (after k words n b s).blk n = b := by cases n <;> rfl
@[simp] theorem blk_afterValue : (afterValue k words n v b s).blk n = b := by cases n <;> rfl
@[simp] theorem res_afterValue : (afterValue k words n v b s).res = v := rfl

@[simp] theorem advance_after : advance words (after k 0 n b s) = after k words n b s := by
  cases n <;> simp [after, advance]

@[simp] theorem advance_report_after :
    advance words (report v (after k 0 n b s)) = afterValue k words n v b s := by
  cases n <;> simp [after, afterValue, advance, report, State.setBlk]

@[simp] theorem after_after : after j 0 n c (after k 0 n b s) = after (k + j) 0 n c s := by
  cases n <;> simp [after, Schedule.drop_drop, State.setBlk]
end

/-- `j` turns into a silence that is long enough, the next `k` are quiet. -/
theorem quiet_of_drop {j k m : Nat} {s t : State} (h : s.quiet m = true) (ht : t.sched = s.sched.drop j)
    (hle : j + k ≤ m := by omega) : t.quiet k = true := by
  rw [State.quiet, Schedule.quiet_iff] at h ⊢
  intro i hi
  rw [ht, Schedule.drop_drop]
  exact h (j + i) (by omega)

theorem quiet_of_le {k m : Nat} {s : State} (h : s.quiet m = true) (hle : k ≤ m) : s.quiet k = true :=
  quiet_of_drop (j := 0) h rfl

section
variable (n : Inst) (r : Reg) (v : Word) {s : State} {k : Nat}

theorem busRead_eq_after (h : s.quiet (k + 1) = true) :
    busRead n r s = (readOf r (s.blk n), after 1 0 n (afterRead r (s.blk n)) s) := by
  rw [busRead_of_quiet n r h, readValue_eq, blockRead_eq, ← advance_after]
  cases n <;> rfl

theorem busWrite_eq_after (h : s.quiet (k + 1) = true) :
    busWrite n r v s = after 1 0 n (afterWrite r v (s.blk n)) s := by
  rw [busWrite_of_quiet n r v h, blockWrite_eq]
  cases n <;> rfl

theorem readModifyWrite_eq_after (f : Word → Word) (h : s.quiet (k + 2) = true) : readModifyWrite n r f s
    = after 2 0 n (afterWrite r (f (readOf r (s.blk n))) (afterRead r (s.blk n))) s := by
  rw [readModifyWrite_of_quiet n r f h, readValue_eq, blockRead_eq, blockWrite_eq]
  cases n <;> rfl
end

/-! ### Read-modify-writes -/

section
variable {i : Instr} {n : Inst} {f : Word → Word}

theorem updatesCtrl1_of_exec (h : ∀ s, exec i s = .next (advance 1 (readModifyWrite n .ctrl1 f s))) :
    UpdatesCtrl1 i n f := by
  intro s
  refine ⟨⟨_, h s, ?_, by simp, by simp, by simp⟩, fun hquiet => ?_⟩
  · rw [blk_advance, readModifyWrite_state, blk_busWrite_self, blockWrite_ctrl1]; rfl
  · rw [h, readModifyWrite_eq_after n .ctrl1 f hquiet, advance_after]
    exact congrArg (fun b => Host.Outcome.next (after 2 1 n b s)) (afterCtrl1Write_afterCtrl1Read ..)

theorem updatesCtrl2_of_exec (h : ∀ s, exec i s = .next (advance 1 (readModifyWrite n .ctrl2 f s))) :
    UpdatesCtrl2 i n f := by
  intro s
  refine ⟨⟨_, h s, ?_, by simp, by simp, by simp⟩, fun hquiet => ?_⟩
  · rw [blk_advance, readModifyWrite_state, blk_busWrite_self, blockWrite_eq]; rfl
  · rw [h, readModifyWrite_eq_after n .ctrl2 f hquiet, advance_after]
    exact congrArg (fun b => Host.Outcome.next (after 2 1 n b s)) (afterOther_ctrl2_afterOther ..)

/-! ### Single accesses -/

theorem returnsRegister_of_exec {r : Reg} (h : ∀ s, exec i s = .next (advance 1 (readToResult n r s))) :
    ReturnsRegister i n r := by
  intro s
  refine ⟨⟨_, h s, ?_, by simp [readToResult_state], by simp [readToResult_state], ?_⟩, fun hquiet => ?_⟩
  · rw [res_advance, readToResult_state, res_report, readValue_eq]
  · rw [blk_advance, readToResult_state, blk_report, blk_busRead_self, blockRead_eq]
  · rw [h, readToResult, busRead_eq_after n r hquiet, advance_report_after]

theorem writesRegister_of_exec {r : Reg} {v : Word} (h : ∀ s, exec i s = .next (advance 1 (busWrite n r v s))) :
    WritesRegister i n r v := by
  intro s
  refine ⟨⟨_, h s, ?_, by simp, by simp, by simp⟩, fun hquiet => ?_⟩
  · rw [blk_advance, blk_busWrite_self, blockWrite_eq]
  · rw [h, busWrite_eq_after n r v hquiet, advance_after]
end

/-! ### The commands -/

/-- Settles O41: both read CTRL1 and write it back. -/
theorem enableAndDisable : Obligations.EnableAndDisable :=
  fun _ => ⟨updatesCtrl1_of_exec fun _ => rfl, updatesCtrl1_of_exec fun _ => rfl⟩

/-- Settles O42: two on CTRL1, two on CTRL2, each a read and a write back. -/
theorem slaveSelectControls : Obligations.SlaveSelectControls :=
  fun _ => ⟨updatesCtrl1_of_exec fun _ => rfl, updatesCtrl1_of_exec fun _ => rfl, updatesCtrl2_of_exec fun _ => rfl,
    updatesCtrl2_of_exec fun _ => rfl⟩

/-- Settles O43: each direction reads CTRL1 and writes it back. -/
theorem setDirection : Obligations.SetDirection :=
  fun _ => ⟨updatesCtrl1_of_exec fun _ => rfl, updatesCtrl1_of_exec fun _ => rfl⟩

/-- Settles O44: three read-modify-writes of CTRL1 and three reads. -/
theorem crcCommands : Obligations.CrcCommands :=
  fun _ => ⟨updatesCtrl1_of_exec fun _ => rfl, updatesCtrl1_of_exec fun _ => rfl, updatesCtrl1_of_exec fun _ => rfl,
    returnsRegister_of_exec fun _ => rfl, returnsRegister_of_exec fun _ => rfl, returnsRegister_of_exec fun _ => rfl⟩

/-- Settles O47: each channel's command reads CTRL2 and writes it back. -/
theorem dmaRequestEnables : Obligations.DmaRequestEnables :=
  fun _ => ⟨updatesCtrl2_of_exec fun _ => rfl, updatesCtrl2_of_exec fun _ => rfl, updatesCtrl2_of_exec fun _ => rfl,
    updatesCtrl2_of_exec fun _ => rfl⟩

/-- Settles O48: each source's command reads CTRL2 and writes it back. -/
theorem interruptEnables : Obligations.InterruptEnables :=
  fun _ => ⟨updatesCtrl2_of_exec fun _ => rfl, updatesCtrl2_of_exec fun _ => rfl, updatesCtrl2_of_exec fun _ => rfl,
    updatesCtrl2_of_exec fun _ => rfl, updatesCtrl2_of_exec fun _ => rfl, updatesCtrl2_of_exec fun _ => rfl⟩

/-- Settles O49: one write and one read of DATA. -/
theorem transmitAndReceive : Obligations.TransmitAndReceive :=
  fun _ => ⟨fun _ => writesRegister_of_exec fun _ => rfl, returnsRegister_of_exec fun _ => rfl⟩

/-- Settles O50: one read or one write of the register. -/
theorem rawAccess : Obligations.RawAccess :=
  fun _ _ => ⟨returnsRegister_of_exec fun _ => rfl, fun _ => writesRegister_of_exec fun _ => rfl⟩

end Sys2Proof.Machine
end

