-- ==== Sys2Proof/Proofs/StatusCommands.lean ====
section
/-! RDFLAG and RDINT, which read the status, and CLRFLAG and CLRINT, which clear CRCERR alone (43_status_interrupt.md). -/

namespace Sys2Proof.Machine

open Claims

/-! ### RDFLAG (R200) -/

/-- Settles O52: the value is the flag's bit of the STS value, the side effects are those of any STS read. -/
theorem readFlagCommand : Obligations.ReadFlagCommand := by
  intro n f s
  refine ⟨⟨_, exec_rdflag n f s, ?_, by simp, by simp, ?_⟩, fun hquiet => ?_⟩
  · rw [res_advance, res_report, busRead_value]
    exact congrArg zext16 (stsval_and_flagMask_ne_zero _ f)
  · rw [blk_advance, blk_report, blk_busRead_self, blockRead_eq]; rfl
  · rw [exec_rdflag, busRead_eq_after n .sts hquiet, advance_report_after]
    exact congrArg (fun b => Host.Outcome.next (afterValue 1 1 n (zext16 b) _ s)) (stsval_and_flagMask_ne_zero _ f)

/-! ### RDINT (R205, R206) -/

/-- Settles O53: the value's two terms are a bit of CTRL2 and a condition on the flags, each as its own read finds
it. -/
theorem readInterruptCommand : Obligations.ReadInterruptCommand := by
  intro n src s
  refine ⟨⟨_, exec_rdint n src s, ?_, by simp, by simp⟩, fun hquiet => ?_⟩
  · rw [res_advance, res_report, busRead_value, busRead_value]
    exact congrArg zext16 (congrArg₂ and (and_enMask_ne_zero _ src) (stsval_and_stMask_ne_zero _ src))
  · have hlater : State.quiet 1 (after 1 0 n (afterOther (s.blk n)) s) = true := quiet_of_drop hquiet rfl
    rw [exec_rdint, busRead_eq_after n .ctrl2 hquiet]
    dsimp only [afterRead]
    rw [busRead_eq_after n .sts hlater, blk_after, after_after, advance_report_after]
    exact congrArg (fun b => Host.Outcome.next (afterValue 2 1 n (zext16 b) _ s))
      (congrArg₂ and (and_enMask_ne_zero _ src) (stsval_and_stMask_ne_zero (s.blk n) src))

/-- Settles O54: RDINT's value by the two conditions the table is written in. -/
theorem interruptTruthTable : Obligations.InterruptTruthTable := by
  intro n src s hquiet
  refine ⟨_, (readInterruptCommand n src s).2 hquiet, ?_⟩
  have henable : ((s.blk n).ctrl2 &&& 0x00E7 &&& enMask src != 0) = (s.blk n).ctrl2.getLsbD (enableBit src) :=
    and_enMask_ne_zero _ src
  rw [res_afterValue, henable, stsval_and_stMask_ne_zero]
  cases (s.blk n).ctrl2.getLsbD (enableBit src) <;> cases condition (s.blk n) src <;> rfl

/-! ### CLRFLAG and CLRINT (R208, R209, R211) -/

/-- Settles O55: both commands write STS with bit 4 = 0, and neither looks at its operand. -/
theorem clearCommands : Obligations.ClearCommands := by
  intro n s
  have hwrites (f : Flag) : WritesRegister (.clrflag n f) n .sts (~~~F_CRCERR) := writesRegister_of_exec fun _ => rfl
  refine ⟨fun f => ?_, fun _ _ => rfl, fun hquiet f => (hwrites f s).2 hquiet⟩
  obtain ⟨t, hexec, hblk, hpc, hres, hout⟩ := (hwrites f s).1
  exact ⟨t, hexec, hblk, hpc, hres, hout⟩

end Sys2Proof.Machine
end

