-- ==== Sys2Proof/Proofs/ResetBlock.lean ====
section
/-! RESET (42_control.md R160, 70_reset_and_hazards.md R270) and the block a reset leaves (R272, 60_exceptions.md R251). -/

namespace Sys2Proof.Machine

/-- Settles O36: the pulse's block, and the frame of its turn. -/
theorem resetCommand : Obligations.ResetCommand :=
  fun n s => ⟨_, rfl, (blk_advance _ 1 n).trans (blk_resetPulse_self n s),
    fun m hm => (blk_advance _ 1 m).trans (blk_resetPulse_of_ne hm s), by simp, by simp, by simp, by simp⟩

/-- Settles O35: a reset block has TXE as its only flag, no interrupt enabled, and SPE and CFG_DONE clear. -/
theorem blockAfterReset : Obligations.BlockAfterReset := by
  intro v
  have hint (src : Source) : intFlag (Block.reset v) src = false := by simp [intFlag_eq, Block.reset]
  have hirq : irq (Block.reset v) = false := by simp [irq, hint]
  have hsts : stsval (Block.reset v) = 0x0002 := by simp [stsval, zext16, Block.reset]
  have hstate : pState (Block.reset v) = .reset := by simp [pState, spe, Block.reset]
  refine ⟨hsts, hint, hirq, by simp [Block.reset], hstate, ?_⟩
  rw [(outputLines _).2.1]
  simp [Block.reset]

end Sys2Proof.Machine
end

