-- ==== Sys2Proof/Proofs/SetFrame.lean ====
section
/-! SETFRAME (42_control.md R172, R173): two read-modify-writes of CTRL1, the first of which clears FLEN, so that FLEN is 0 between them
(70_reset_and_hazards.md R280). -/

namespace Sys2Proof.Machine

open Claims

theorem encFrame_eq (len : FrameLen) : encFrame len = lengthBits len := by cases len <;> rfl

theorem flen_lengthBits (len : FrameLen) : (lengthBits len).getLsbD 11 = decide (len = .bits16) := by cases len <;> rfl

/-! ### FLEN between the two writes -/

theorem flen_and_mask (v : Word) : (v &&& 0xF7FF).getLsbD 11 = false := by simp

theorem flen_and {v : Word} (h : v.getLsbD 11 = false) (mask : Word) : (v &&& mask).getLsbD 11 = false := by
  rw [BitVec.getLsbD_and, h, Bool.false_and]

/-- No engine event sets FLEN. -/
theorem flen_engineEvent (f : ModfForce) (u : Rx8Upper) (e : EngineEvent) (b : Block) (h : b.ctrl1.getLsbD 11 = false) :
    (engineEvent f u e b).ctrl1.getLsbD 11 = false := by
  cases e with
  | modf =>
    cases f with
    | none => exact h
    | clearSpeMstr => exact flen_and h _
  | crcdone => exact flen_and h _
  | _ => exact h

theorem flen_engineTurn {n : Inst} {s : State} (h : (s.blk n).ctrl1.getLsbD 11 = false) :
    ((engineTurn s).blk n).ctrl1.getLsbD 11 = false := by
  rw [blk_engineTurn]
  exact applyTurn_induction flen_engineEvent _ n h

theorem ctrl1_busRead_ctrl1 (n : Inst) (s : State) :
    ((busRead n .ctrl1 s).2.blk n).ctrl1 = ((engineTurn s).blk n).ctrl1 := by
  rw [blk_busRead_self, blockRead_eq]; rfl

theorem ctrl1_busWrite_ctrl1 (n : Inst) (v : Word) (s : State) : ((busWrite n .ctrl1 v s).blk n).ctrl1 = v := by
  rw [blk_busWrite_self, blockWrite_ctrl1]; rfl

/-! ### A frame received between the two writes -/

/-- While FLEN is 0, a received frame's upper byte is masked on a chip that zeroes it (log 1). -/
theorem rxbuf_engineTurn_of_rx {n : Inst} {d : Word} {s : State} (hturn : s.sched.head = [(n, .rx d)])
    (hflen : (s.blk n).ctrl1.getLsbD 11 = false) :
    ((engineTurn s).blk n).rxbuf = if Config.rx8Upper = .zero then d &&& 0x00FF else d := by
  rw [blk_engineTurn, hturn, applyTurn_cons_self, applyTurn_nil]
  exact (rxFrame_eq ..).trans (by simp only [flen, hflen, and_true])

theorem blk_engineTurn_of_head_nil {n : Inst} {s : State} (hturn : s.sched.head = []) :
    (engineTurn s).blk n = s.blk n := by
  rw [blk_engineTurn, hturn, applyTurn_nil]

/-! ### The command -/

/-- The state after the first read-modify-write: FLEN cleared. -/
def lengthCleared (n : Inst) (s : State) : State :=
  busWrite n .ctrl1 ((busRead n .ctrl1 s).1 &&& 0xF7FF) (busRead n .ctrl1 s).2

theorem exec_setframe (n : Inst) (len : FrameLen) (s : State) : exec (.setframe n len) s
    = .next (advance 1 (busWrite n .ctrl1 ((busRead n .ctrl1 (lengthCleared n s)).1 ||| lengthBits len)
        (busRead n .ctrl1 (lengthCleared n s)).2)) := by
  rw [← encFrame_eq]; rfl

theorem sched_lengthCleared (n : Inst) (s : State) : (lengthCleared n s).sched = s.sched.drop 2 := by simp [lengthCleared]

theorem flen_lengthCleared (n : Inst) (s : State) : ((lengthCleared n s).blk n).ctrl1.getLsbD 11 = false := by
  rw [lengthCleared, ctrl1_busWrite_ctrl1, flen_and_mask]

theorem flen_read_lengthCleared (n : Inst) (s : State) :
    ((busRead n .ctrl1 (lengthCleared n s)).2.blk n).ctrl1.getLsbD 11 = false := by
  rw [ctrl1_busRead_ctrl1]
  exact flen_engineTurn (flen_lengthCleared n s)

/-- In either of the two turns after FLEN was cleared, a frame received last is the one left in RXBUF. -/
theorem rxbuf_setframe {n : Inst} {s : State} {d : Word}
    (hturns : (s.sched.drop 2).head = [(n, .rx d)] ∧ (s.sched.drop 3).head = [] ∨ (s.sched.drop 3).head = [(n, .rx d)]) :
    ((engineTurn (busRead n .ctrl1 (lengthCleared n s)).2).blk n).rxbuf
      = if Config.rx8Upper = .zero then d &&& 0x00FF else d := by
  have hthird : (lengthCleared n s).sched.head = (s.sched.drop 2).head := by rw [sched_lengthCleared]
  have hfourth : (busRead n .ctrl1 (lengthCleared n s)).2.sched.head = (s.sched.drop 3).head := by
    rw [sched_busRead, sched_lengthCleared]; rfl
  obtain ⟨h3, h4⟩ | h4 := hturns
  · rw [blk_engineTurn_of_head_nil (hfourth.trans h4), blk_busRead_self, blockRead_eq]
    exact rxbuf_engineTurn_of_rx (hthird.trans h3) (flen_lengthCleared n s)
  · exact rxbuf_engineTurn_of_rx (hfourth.trans h4) (flen_read_lengthCleared n s)

/-- A second CTRL1 write finds the mode-fault clear completed and changes nothing but CTRL1. -/
theorem afterCtrl1Write_afterCtrl1Write (v w : Word) (b : Block) :
    afterCtrl1Write w (afterCtrl1Write v b) = afterCtrl1Write w b := by simp [afterCtrl1Write]

/-- With quiet engines the two read-modify-writes are one CTRL1 write. -/
theorem exec_setframe_of_quiet {n : Inst} {len : FrameLen} {s : State} (hquiet : s.quiet 4 = true) :
    exec (.setframe n len) s
      = .next (after 4 1 n (afterCtrl1Write ((s.blk n).ctrl1 &&& 0xF7FF ||| lengthBits len) (s.blk n)) s) := by
  have hfirst : readModifyWrite n .ctrl1 (fun v => v &&& ~~~M_FLEN) s
      = after 2 0 n (afterCtrl1Write ((s.blk n).ctrl1 &&& 0xF7FF) (s.blk n)) s := by
    rw [readModifyWrite_eq_after n .ctrl1 _ hquiet, afterRead, afterWrite, afterCtrl1Write_afterCtrl1Read]; rfl
  have hsecond : State.quiet 2 (after 2 0 n (afterCtrl1Write ((s.blk n).ctrl1 &&& 0xF7FF) (s.blk n)) s) = true :=
    quiet_of_drop hquiet rfl
  have hexec : exec (.setframe n len) s = .next (advance 1 (readModifyWrite n .ctrl1 (fun v => v ||| encFrame len)
      (readModifyWrite n .ctrl1 (fun v => v &&& ~~~M_FLEN) s))) := rfl
  rw [hexec, hfirst, readModifyWrite_eq_after n .ctrl1 _ hsecond, after_after, advance_after, blk_after, afterRead,
    afterWrite, afterCtrl1Write_afterCtrl1Read, afterCtrl1Write_afterCtrl1Write, encFrame_eq]
  rfl

/-- Settles O45: the four accesses, what lies between them, and the same with quiet engines. -/
theorem setFrameCommand : Obligations.SetFrameCommand := by
  intro n len s
  refine ⟨⟨?_, flen_lengthCleared n s, flen_read_lengthCleared n s, flen_engineTurn (flen_read_lengthCleared n s)⟩,
    ⟨_, exec_setframe n len s, ?_, ?_, ?_, ?_, fun d hturns => ?_⟩, exec_setframe_of_quiet⟩
  · rw [exec_setframe, advance]
    simp only [pc_busWrite, pc_busRead, lengthCleared]
  · rw [blk_advance, ctrl1_busWrite_ctrl1, BitVec.getLsbD_or, flen_lengthBits, busRead_value, readValue,
      flen_engineTurn (flen_lengthCleared n s), Bool.false_or]
  · simp [lengthCleared]
  · simp [lengthCleared]
  · simp [lengthCleared]
  · rw [blk_advance, blk_busWrite_self, blockWrite_ctrl1]
    exact rxbuf_setframe hturns

/-! ### Two in a row (R173) -/

/-- The length bits are FLEN alone, which the next SETFRAME clears. -/
theorem lengthBits_and_mask (len : FrameLen) : lengthBits len &&& 0xF7FF = 0 := by cases len <;> rfl

/-- Settles O46: the second command clears what the first one set of FLEN, and no other bit. -/
theorem setFrameConverges : Obligations.SetFrameConverges := by
  intro n len1 len2 s hquiet
  have hfirst : s.quiet 4 = true := quiet_of_le hquiet (by decide)
  refine ⟨_, _, exec_setframe_of_quiet hfirst, exec_setframe_of_quiet (quiet_of_drop hquiet rfl), ?_⟩
  rw [blk_after, blk_after, afterCtrl1Write_afterCtrl1Write]
  show ((s.blk n).ctrl1 &&& 0xF7FF ||| lengthBits len1) &&& 0xF7FF ||| lengthBits len2 = _
  rw [BitVec.and_or_distrib_right, lengthBits_and_mask, BitVec.and_assoc, BitVec.and_self]
  exact congrArg (· ||| lengthBits len2) BitVec.or_zero

end Sys2Proof.Machine
end

