-- ==== Sys2Proof/Proofs/ConfigureCommand.lean ====
section
/-! CONFIGURE (41_configuration.md R145 to R149): a read-modify-write of CTRL1 and a write of CRCPOLY, with the ghost CFG_DONE. -/

namespace Sys2Proof.Machine

open Claims

/-- What CONFIGURE writes to CTRL1, by the value its read gave (R145). -/
def configured (c : Configuration) (v : Word) : Word := v &&& 0x3040 ||| encoded c.toCtrl1Fields

theorem exec_configure (n : Inst) (c : Configuration) (s : State) : exec (.configure n c) s
    = .next (advance 2 (markConfigured n (busWrite n .crcpoly c.poly (readModifyWrite n .ctrl1 (configured c) s)))) := rfl

theorem blk_markConfigured_self (n : Inst) (s : State) :
    (markConfigured n s).blk n = { s.blk n with cfgDone := true } := State.blk_setBlk_self ..

/-- The block CONFIGURE leaves with quiet engines. -/
def afterConfigure (c : Configuration) (b : Block) : Block :=
  { afterOther (afterCtrl1Write (configured c b.ctrl1) b) with crcpoly := c.poly, cfgDone := true }

theorem exec_configure_of_quiet {n : Inst} {c : Configuration} {s : State} (hquiet : s.quiet 3 = true) :
    exec (.configure n c) s = .next (after 3 2 n (afterConfigure c (s.blk n)) s) := by
  have hmodify : readModifyWrite n .ctrl1 (configured c) s
      = after 2 0 n (afterCtrl1Write (configured c (s.blk n).ctrl1) (s.blk n)) s := by
    rw [readModifyWrite_eq_after n .ctrl1 _ hquiet, afterRead, afterWrite, afterCtrl1Write_afterCtrl1Read]; rfl
  have hlast : State.quiet 1 (after 2 0 n (afterCtrl1Write (configured c (s.blk n).ctrl1) (s.blk n)) s) = true :=
    quiet_of_drop hquiet rfl
  have hmark (b : Block) : markConfigured n (after 3 0 n b s) = after 3 0 n { b with cfgDone := true } s := by
    cases n <;> rfl
  rw [exec_configure, hmodify, busWrite_eq_after n .crcpoly _ hlast, after_after, hmark, advance_after, blk_after]
  rfl

/-- Settles O37: CRCPOLY and CFG_DONE are the last things written, the rest is the frame and the quiet case. -/
theorem configureCommand : Obligations.ConfigureCommand := by
  intro n c s
  refine ⟨⟨_, exec_configure n c s, ?_, ?_, by simp, by simp, by simp⟩, exec_configure_of_quiet⟩
  · rw [blk_advance, blk_markConfigured_self, blk_busWrite_self, blockWrite_eq]; rfl
  · rw [blk_advance, blk_markConfigured_self]

/-- CTRL1 after CONFIGURE is its CTRL1 write after one more turn of the engines. -/
theorem ctrl1_configure (n : Inst) (v : Word) (s : State) :
    ((advance 2 (markConfigured n (busWrite n .crcpoly v s))).blk n).ctrl1 = ((engineTurn s).blk n).ctrl1 := by
  rw [blk_advance, blk_markConfigured_self, blk_busWrite_self, blockWrite_eq]; rfl

/-- Settles O38: the turn before the last access is all that can come between the CTRL1 write and the end. -/
theorem configureResult : Obligations.ConfigureResult := by
  intro n c s
  refine ⟨_, exec_configure n c s, ctrl1_configure .., fun hquiet => ?_⟩
  have hturn : (readModifyWrite n .ctrl1 (configured c) s).sched.head = [] := by
    rw [sched_readModifyWrite]
    exact Schedule.quiet_iff.1 hquiet 0 (by omega)
  rw [ctrl1_configure, blk_engineTurn_of_head_nil hturn, readModifyWrite_state, ctrl1_busWrite_ctrl1]
  rfl

/-! ### What the values are -/

/-- No bit CONFIGURE keeps is a bit of its fields. -/
theorem encoded_and_preserve (c : Ctrl1Fields) : encoded c &&& 0x3040 = 0 :=
  and_eq_zero_of_within (within_cfgMask_encoded c) (BitVec.and_self ..) rfl

/-- R146: the kept bits are kept again, and the fields' bits are set alike. -/
theorem configured_configured (c : Configuration) (v : Word) : configured c (configured c v) = configured c v := by
  unfold configured
  rw [BitVec.and_or_distrib_right, encoded_and_preserve, BitVec.and_assoc, BitVec.and_self]
  exact congrArg (· ||| encoded c.toCtrl1Fields) BitVec.or_zero

theorem afterConfigure_afterConfigure (c : Configuration) (b : Block) :
    afterConfigure c (afterConfigure c b) = afterConfigure c b := by
  simp [afterConfigure, afterOther, afterCtrl1Write, configured_configured]

/-- Settles O39: `afterConfigure` applied twice is applied once. -/
theorem configureIsIdempotent : Obligations.ConfigureIsIdempotent := by
  intro n c s hquiet
  have hfirst : s.quiet 3 = true := quiet_of_le hquiet (by decide)
  refine ⟨_, _, exec_configure_of_quiet hfirst, exec_configure_of_quiet (quiet_of_drop hquiet rfl), ?_⟩
  rw [blk_after, blk_after, afterConfigure_afterConfigure]

/-- SPE is a bit CONFIGURE keeps, and no field's. -/
theorem spe_configured (c : Configuration) (v : Word) : (configured c v).getLsbD 6 = v.getLsbD 6 := by
  have hfields : (encoded c.toCtrl1Fields).getLsbD 6 = false := by
    rw [← within_cfgMask_encoded, BitVec.getLsbD_and]
    simp [CFG_MASK]
  rw [configured, BitVec.getLsbD_or, BitVec.getLsbD_and, hfields]
  simp

theorem afterConfigure_default_reset (v : Word) :
    afterConfigure defaultConfig (Block.reset v) = { Block.reset v with cfgDone := true } := by
  have hctrl1 : configured defaultConfig 0#16 = 0#16 := by decide
  have hpoly : defaultConfig.poly = 7#16 := rfl
  simp [afterConfigure, afterOther, afterCtrl1Write, Block.reset, hctrl1, hpoly]

/-- Settles O40: SPE is among the kept bits, and DefaultConfig's encoding is 0. -/
theorem configureDoesNotEnable : Obligations.ConfigureDoesNotEnable := by
  refine ⟨fun n c s hquiet => ⟨_, exec_configure_of_quiet hquiet, ?_⟩,
    fun n v s hquiet hreset => ⟨_, exec_configure_of_quiet hquiet, ?_, ?_, ?_⟩⟩
  · rw [blk_after]
    exact spe_configured c _
  · rw [blk_after, hreset, afterConfigure_default_reset]
  · rw [blk_after, hreset, afterConfigure_default_reset]; rfl
  · rw [blk_after, hreset, afterConfigure_default_reset]; rfl

end Sys2Proof.Machine
end

