-- ==== Sys2Proof/Proofs/ClearSequences.lean ====
section
/-! The clear sequences as commands run them with quiet engines (60_exceptions.md R244 to R249): overrun by RXDATA and an STS read, mode
fault by an STS read and a CTRL1 write, and what the overrun's does to the peripheral state (43_status_interrupt.md R223). -/

namespace Sys2Proof.Machine

open Claims

/-! ### The commands of the sequences -/

section
variable (n : Inst) {s : State}

theorem exec_rxdata_of_quiet (h : s.quiet 1 = true) :
    exec (.rxdata n) s = .next (afterValue 1 1 n (s.blk n).rxbuf (afterDataRead (s.blk n)) s) :=
  ((transmitAndReceive n).2 s).2 h

theorem exec_txdata_of_quiet (v : Word) (h : s.quiet 1 = true) :
    exec (.txdata n v) s = .next (after 1 1 n (afterWrite .data v (s.blk n)) s) :=
  ((transmitAndReceive n).1 v s).2 h

theorem exec_busrd_sts_of_quiet (h : s.quiet 1 = true) :
    exec (.busrd n .sts) s = .next (afterValue 1 1 n (stsval (s.blk n)) (afterStsRead (s.blk n)) s) :=
  ((rawAccess n .sts).1 s).2 h

theorem exec_rdflag_of_quiet (f : Flag) (h : s.quiet 1 = true) :
    ∃ v, exec (.rdflag n f) s = .next (afterValue 1 1 n v (afterStsRead (s.blk n)) s) :=
  ⟨_, (readFlagCommand n f s).2 h⟩

theorem exec_enable_of_quiet (h : s.quiet 2 = true) :
    ∃ v, exec (.enable n) s = .next (after 2 1 n (afterCtrl1Write v (s.blk n)) s) :=
  ⟨_, ((enableAndDisable n).1 s).2 h⟩
end

/-! ### Overrun -/

/-- RXDATA and then BUSRD STS: the value the read returns, and the block after both. -/
theorem exec_rxdata_busrd_sts {n : Inst} {s : State} (hquiet : s.quiet 2 = true) :
    ∃ t1 t2, exec (.rxdata n) s = .next t1 ∧ exec (.busrd n .sts) t1 = .next t2
      ∧ t2.res = stsval (afterDataRead (s.blk n)) ∧ t2.blk n = afterStsRead (afterDataRead (s.blk n)) :=
  ⟨_, _, exec_rxdata_of_quiet n (quiet_of_le hquiet (by decide)),
    exec_busrd_sts_of_quiet n (quiet_of_drop hquiet rfl), by simp, by simp⟩

/-- A DATA read while OVR is 1, and then an STS read, leave OVR clear. -/
theorem ovr_afterStsRead_afterDataRead {b : Block} (h : b.ovr = true) :
    (afterStsRead (afterDataRead b)).ovr = false := by simp [afterStsRead, afterDataRead, h]

/-- Settles O14: each order of the accesses, by what they do to OVR and OVR_ARM. -/
theorem overrunClearSequence : Obligations.OverrunClearSequence := by
  intro n s hquiet hovr
  have hfirst : s.quiet 1 = true := quiet_of_le hquiet (by decide)
  refine ⟨?_, fun harm => ?_, fun v => ?_⟩
  · obtain ⟨t1, t2, h1, h2, hres, hblk⟩ := exec_rxdata_busrd_sts (n := n) (quiet_of_le hquiet (by decide))
    refine ⟨t1, t2, h1, h2, ?_, ?_, ?_⟩
    · rw [hres]
      exact (getLsbD_stsval _ .ovr).trans hovr
    · rw [hblk, ovr_afterStsRead_afterDataRead hovr]
    · rw [hblk, afterStsRead]
  · refine ⟨_, _, exec_busrd_sts_of_quiet n hfirst, exec_rxdata_of_quiet n (quiet_of_drop hquiet rfl), ?_, ?_⟩
    · simp [afterStsRead, afterDataRead, hovr, harm]
    · simp [afterStsRead, afterDataRead, hovr, harm]
  · refine ⟨_, _, _, exec_rxdata_of_quiet n hfirst, exec_txdata_of_quiet n v (quiet_of_drop hquiet rfl),
      exec_busrd_sts_of_quiet n (quiet_of_drop (j := 2) hquiet rfl), ?_, ?_⟩
    · simp [afterStsRead, afterDataRead, afterWrite, afterOther, hovr]
    · rw [blk_afterValue, afterStsRead]

/-! ### Mode fault -/

/-- Settles O15: the STS read of RDFLAG arms the clear, and the CTRL1 write of ENABLE completes an armed one. -/
theorem modeFaultClearSequence : Obligations.ModeFaultClearSequence := by
  intro n f s hquiet hmodf
  constructor
  · obtain ⟨v, hread⟩ := exec_rdflag_of_quiet n f (quiet_of_le hquiet (by decide))
    obtain ⟨w, hwrite⟩ := exec_enable_of_quiet n (s := afterValue 1 1 n v (afterStsRead (s.blk n)) s)
      (quiet_of_drop hquiet rfl)
    refine ⟨_, _, hread, hwrite, ?_, ?_, ?_, ?_⟩ <;> simp [afterStsRead, afterCtrl1Write, hmodf]
  · intro harm
    obtain ⟨w, hwrite⟩ := exec_enable_of_quiet n (quiet_of_le hquiet (by decide))
    exact ⟨_, hwrite, by simp [afterCtrl1Write, hmodf, harm]⟩

/-! ### The peripheral state (R223) -/

/-- Settles O58: the sequence clears OVR and touches neither another error flag nor SPE nor BSY. -/
theorem errorIsNotASink : Obligations.ErrorIsNotASink := by
  intro n s hquiet hovr _ hcrcerr hmodf hspe hbsy
  obtain ⟨t1, t2, h1, h2, -, hblk⟩ := exec_rxdata_busrd_sts (n := n) hquiet
  refine ⟨pState_eq_error_iff.2 (.inr (.inr (.inr hovr))), t1, t2, h1, h2, ?_⟩
  rw [hblk]
  have hne : pState (afterStsRead (afterDataRead (s.blk n))) ≠ .error := by
    rw [Ne, pState_eq_error_iff]
    simp [afterStsRead, afterDataRead, hovr, hcrcerr, hmodf]
  obtain ⟨-, hidle, -⟩ := (peripheralStates _).2 hne
  exact hidle.2 ⟨hspe, hbsy⟩

end Sys2Proof.Machine
end
